-- ==== Sys2Proof/Word.lean ====
section
/-! DEFINITION. The word types of the block and their plainest arithmetic (00_scope.md R6, R7: every value is
unsigned, bit 0 is the least significant). -/

namespace Sys2Proof

/-- An 8-bit value: a V register, a timer, a byte of memory. -/
abbrev Byte := BitVec 8

/-- A 16-bit value: an instruction word, I, pc, a call-stack slot. -/
abbrev Word := BitVec 16

/-- A 12-bit address immediate, the field `nnn` (30_encoding.md R101). -/
abbrev Addr12 := BitVec 12

/-- The index of a general register V0..VF (10_state.md R31), the field `x` or `y`. -/
abbrev Reg := Fin 16

/-- V[15], the flag register VF (10_state.md R32). -/
abbrev VF : Reg := 15

/-- `zext_16(v)` (00_scope.md R7). -/
abbrev zext16 {w : Nat} (v : BitVec w) : Word := v.setWidth 16

end Sys2Proof
end

