-- ==== Sys2Proof/Syntax.lean ====
section
/-! DEFINITION. The instruction set: one constructor per row of spec/opcode_table.json (30_encoding.md R103). Every
operand has exactly the width of its field (R101), so an operand out of range cannot be written. -/

namespace Sys2Proof

/-- The 34 instructions. The hex pattern in each docstring is the spec's normative name (30_encoding.md R107). -/
inductive Instr where
  /-- `00E0` -/
  | cls
  /-- `00EE` -/
  | ret
  /-- `1nnn` -/
  | jp (nnn : Addr12)
  /-- `2nnn` -/
  | call (nnn : Addr12)
  /-- `3xkk` -/
  | seImm (x : Reg) (kk : Byte)
  /-- `4xkk` -/
  | sneImm (x : Reg) (kk : Byte)
  /-- `5xy0` -/
  | seReg (x y : Reg)
  /-- `6xkk` -/
  | ldImm (x : Reg) (kk : Byte)
  /-- `7xkk` -/
  | addImm (x : Reg) (kk : Byte)
  /-- `8xy0` -/
  | ldReg (x y : Reg)
  /-- `8xy1` -/
  | or (x y : Reg)
  /-- `8xy2` -/
  | and (x y : Reg)
  /-- `8xy3` -/
  | xor (x y : Reg)
  /-- `8xy4` -/
  | addReg (x y : Reg)
  /-- `8xy5` -/
  | sub (x y : Reg)
  /-- `8xy6`; y is decoded but not read (30_encoding.md R106) -/
  | shr (x y : Reg)
  /-- `8xy7` -/
  | subn (x y : Reg)
  /-- `8xyE`; y is decoded but not read (30_encoding.md R106) -/
  | shl (x y : Reg)
  /-- `9xy0` -/
  | sneReg (x y : Reg)
  /-- `Annn` -/
  | ldI (nnn : Addr12)
  /-- `Bnnn` -/
  | jpV0 (nnn : Addr12)
  /-- `Cxkk` -/
  | rnd (x : Reg) (kk : Byte)
  /-- `Dxyn` -/
  | drw (x y : Reg) (n : BitVec 4)
  /-- `Ex9E` -/
  | skp (x : Reg)
  /-- `ExA1` -/
  | sknp (x : Reg)
  /-- `Fx07` -/
  | ldVxDt (x : Reg)
  /-- `Fx0A` -/
  | ldVxK (x : Reg)
  /-- `Fx15` -/
  | ldDtVx (x : Reg)
  /-- `Fx18` -/
  | ldStVx (x : Reg)
  /-- `Fx1E` -/
  | addIVx (x : Reg)
  /-- `Fx29` -/
  | ldFVx (x : Reg)
  /-- `Fx33` -/
  | ldBVx (x : Reg)
  /-- `Fx55` -/
  | ldMemVx (x : Reg)
  /-- `Fx65` -/
  | ldVxMem (x : Reg)
  deriving DecidableEq, Repr

end Sys2Proof
end

