-- ==== Sys2Proof/Decode.lean ====
section
/-! DEFINITION. The decoder (30_encoding.md R101, R103, R104), total on any bytes, and the encoder written from the same
encoding table (opcode_table.json). -/

namespace Sys2Proof

/-! ## Fields of a word (30_encoding.md R101) -/

/-- `w[15:12]` -/
def fieldOp (w : Word) : BitVec 4 := w.extractLsb' 12 4

/-- `w[11:8]` -/
def fieldX (w : Word) : Reg := (w.extractLsb' 8 4).toFin

/-- `w[7:4]` -/
def fieldY (w : Word) : Reg := (w.extractLsb' 4 4).toFin

/-- `w[3:0]` -/
def fieldN (w : Word) : BitVec 4 := w.extractLsb' 0 4

/-- `w[7:0]` -/
def fieldKK (w : Word) : Byte := w.extractLsb' 0 8

/-- `w[11:0]` -/
def fieldNNN (w : Word) : Addr12 := w.extractLsb' 0 12

/-! ## Decode -/

/-- Why bytes are no instruction: the family whose remaining bits match no row (30_encoding.md R104), or too few bytes
for a word (R100). -/
inductive DecodeError where
  /-- a 0nnn word other than 00E0 and 00EE -/
  | family0 (w : Word)
  /-- 5xyN, N ≠ 0 -/
  | family5 (w : Word)
  /-- 8xyN, N ∈ {8, 9, A, B, C, D, F} -/
  | family8 (w : Word)
  /-- 9xyN, N ≠ 0 -/
  | family9 (w : Word)
  /-- ExKK, KK ∉ {9E, A1} -/
  | familyE (w : Word)
  /-- FxKK, KK not one of the nine -/
  | familyF (w : Word)
  /-- fewer than two bytes -/
  | truncated
  deriving DecidableEq, Repr

/-- The 0x0 rows. -/
def decodeFamily0 (w : Word) : Except DecodeError Instr :=
  if w = 0x00E0 then .ok .cls
  else if w = 0x00EE then .ok .ret
  else .error (.family0 w)

/-- The 0x8 rows, on the final nibble. -/
def decodeFamily8 (w : Word) : Except DecodeError Instr :=
  let x := fieldX w
  let y := fieldY w
  match (fieldN w).toNat with
  | 0x0 => .ok (.ldReg x y)
  | 0x1 => .ok (.or x y)
  | 0x2 => .ok (.and x y)
  | 0x3 => .ok (.xor x y)
  | 0x4 => .ok (.addReg x y)
  | 0x5 => .ok (.sub x y)
  | 0x6 => .ok (.shr x y)
  | 0x7 => .ok (.subn x y)
  | 0xE => .ok (.shl x y)
  | _ => .error (.family8 w)

/-- The 0xE rows, on the low byte. -/
def decodeFamilyE (w : Word) : Except DecodeError Instr :=
  match (fieldKK w).toNat with
  | 0x9E => .ok (.skp (fieldX w))
  | 0xA1 => .ok (.sknp (fieldX w))
  | _ => .error (.familyE w)

/-- The 0xF rows, on the low byte. -/
def decodeFamilyF (w : Word) : Except DecodeError Instr :=
  let x := fieldX w
  match (fieldKK w).toNat with
  | 0x07 => .ok (.ldVxDt x)
  | 0x0A => .ok (.ldVxK x)
  | 0x15 => .ok (.ldDtVx x)
  | 0x18 => .ok (.ldStVx x)
  | 0x1E => .ok (.addIVx x)
  | 0x29 => .ok (.ldFVx x)
  | 0x33 => .ok (.ldBVx x)
  | 0x55 => .ok (.ldMemVx x)
  | 0x65 => .ok (.ldVxMem x)
  | _ => .error (.familyF w)

/-- "Dispatch on the top 4 bits of the instruction, then for several families on additional nibbles"
(30_encoding.md R103). -/
def decodeWord (w : Word) : Except DecodeError Instr :=
  match (fieldOp w).toNat with
  | 0x0 => decodeFamily0 w
  | 0x1 => .ok (.jp (fieldNNN w))
  | 0x2 => .ok (.call (fieldNNN w))
  | 0x3 => .ok (.seImm (fieldX w) (fieldKK w))
  | 0x4 => .ok (.sneImm (fieldX w) (fieldKK w))
  | 0x5 => if fieldN w = 0 then .ok (.seReg (fieldX w) (fieldY w)) else .error (.family5 w)
  | 0x6 => .ok (.ldImm (fieldX w) (fieldKK w))
  | 0x7 => .ok (.addImm (fieldX w) (fieldKK w))
  | 0x8 => decodeFamily8 w
  | 0x9 => if fieldN w = 0 then .ok (.sneReg (fieldX w) (fieldY w)) else .error (.family9 w)
  | 0xA => .ok (.ldI (fieldNNN w))
  | 0xB => .ok (.jpV0 (fieldNNN w))
  | 0xC => .ok (.rnd (fieldX w) (fieldKK w))
  | 0xD => .ok (.drw (fieldX w) (fieldY w) (fieldN w))
  | 0xE => decodeFamilyE w
  | _ => decodeFamilyF w

/-- `w = (b1 << 8) | b2`, big-endian (20_memory.md R75). -/
def wordOfBytes (b1 b2 : Byte) : Word := (b1.setWidth 16 <<< 8) ||| b2.setWidth 16

/-- The byte of a word stored at the lower address. -/
def highByte (w : Word) : Byte := w.extractLsb' 8 8

/-- The byte of a word stored at the higher address. -/
def lowByte (w : Word) : Byte := w.extractLsb' 0 8

/-- The instruction at the head of a byte string, with the rest of it. -/
def decodeBytes : List Byte → Except DecodeError (Instr × List Byte)
  | b1 :: b2 :: rest =>
    match decodeWord (wordOfBytes b1 b2) with
    | .ok i => .ok (i, rest)
    | .error e => .error e
  | _ => .error .truncated

/-- The word whose bits, numbered as opcode_table.json numbers them, are `w`: one 16-bit word, bits from `nbits` up zero. -/
def tableWord (nbits w : Nat) : Word := BitVec.ofNat 16 (w % 2 ^ nbits)

/-- The instruction the decoder reads from those bits laid out as the hardware stores them. -/
def decodeTableWord (nbits w : Nat) : Option Instr :=
  match decodeBytes [highByte (tableWord nbits w), lowByte (tableWord nbits w)] with
  | .ok (i, _) => some i
  | .error _ => none

/-! ## Encode -/

/-- A register index as it stands in a word, before it is shifted into its field. -/
def regBits (x : Reg) : Word := (BitVec.ofFin x : BitVec 4).setWidth 16

/-- Format A: `base | nnn` (30_encoding.md R101). -/
def formatA (base : Word) (nnn : Addr12) : Word := base ||| zext16 nnn

/-- Format B: `base | x << 8 | kk`. -/
def formatB (base : Word) (x : Reg) (kk : Byte) : Word := base ||| regBits x <<< 8 ||| zext16 kk

/-- Format R: `base | x << 8 | y << 4`, the sub-opcode in `base`. -/
def formatR (base : Word) (x y : Reg) : Word := base ||| regBits x <<< 8 ||| regBits y <<< 4

/-- Format D: `base | x << 8 | y << 4 | n`. -/
def formatD (base : Word) (x y : Reg) (n : BitVec 4) : Word :=
  base ||| regBits x <<< 8 ||| regBits y <<< 4 ||| zext16 n

/-- Format X: `base | x << 8`, the sub-opcode in `base`. -/
def formatX (base : Word) (x : Reg) : Word := base ||| regBits x <<< 8

/-- The word of an instruction: the row's match value of opcode_table.json and its fields. -/
def encode : Instr → Word
  | .cls => 0x00E0
  | .ret => 0x00EE
  | .jp nnn => formatA 0x1000 nnn
  | .call nnn => formatA 0x2000 nnn
  | .seImm x kk => formatB 0x3000 x kk
  | .sneImm x kk => formatB 0x4000 x kk
  | .seReg x y => formatR 0x5000 x y
  | .ldImm x kk => formatB 0x6000 x kk
  | .addImm x kk => formatB 0x7000 x kk
  | .ldReg x y => formatR 0x8000 x y
  | .or x y => formatR 0x8001 x y
  | .and x y => formatR 0x8002 x y
  | .xor x y => formatR 0x8003 x y
  | .addReg x y => formatR 0x8004 x y
  | .sub x y => formatR 0x8005 x y
  | .shr x y => formatR 0x8006 x y
  | .subn x y => formatR 0x8007 x y
  | .shl x y => formatR 0x800E x y
  | .sneReg x y => formatR 0x9000 x y
  | .ldI nnn => formatA 0xA000 nnn
  | .jpV0 nnn => formatA 0xB000 nnn
  | .rnd x kk => formatB 0xC000 x kk
  | .drw x y n => formatD 0xD000 x y n
  | .skp x => formatX 0xE09E x
  | .sknp x => formatX 0xE0A1 x
  | .ldVxDt x => formatX 0xF007 x
  | .ldVxK x => formatX 0xF00A x
  | .ldDtVx x => formatX 0xF015 x
  | .ldStVx x => formatX 0xF018 x
  | .addIVx x => formatX 0xF01E x
  | .ldFVx x => formatX 0xF029 x
  | .ldBVx x => formatX 0xF033 x
  | .ldMemVx x => formatX 0xF055 x
  | .ldVxMem x => formatX 0xF065 x

/-- The two bytes of an instruction, lowest address first. -/
def encodeBytes (i : Instr) : List Byte := [highByte (encode i), lowByte (encode i)]

end Sys2Proof
end

