-- ==== Sys2Proof/Machine/Flags.lean ====
section
/-! DEFINITION. The flag computations (43_alu.md R233): every flag an instruction writes into VF. -/

namespace Sys2Proof.Machine

/-- A flag as VF holds it: 0 or 1 (10_state.md R32). -/
def flagByte (f : Bool) : Byte := if f then 1 else 0

/-- 8xy4: the true sum exceeds 255 (43_alu.md R226). -/
def carryFlag (a b : Byte) : Bool := decide (255 < a.toNat + b.toNat)

/-- 8xy5 as `noBorrowFlag a b`, 8xy7 as `noBorrowFlag b a`: minuend ≥ subtrahend (43_alu.md R227, R229). -/
def noBorrowFlag (minuend subtrahend : Byte) : Bool := decide (subtrahend.toNat ≤ minuend.toNat)

/-- 8xy6: bit 0 before the shift (43_alu.md R228). -/
def shiftedOutRight (a : Byte) : Bool := a.getLsbD 0

/-- 8xyE: bit 7 before the shift (43_alu.md R230). -/
def shiftedOutLeft (a : Byte) : Bool := a.getLsbD 7

/-- Dxyn at one cell: a set pixel meets a set sprite bit (41_display.md R171, R173). -/
def collides (pixel bit : Bool) : Bool := pixel && bit

end Sys2Proof.Machine
end

