-- ==== Sys2Proof/Config.lean ====
section
/-! DEFINITION. The block's parameters (00_scope.md R5), the default font, and its one free value, the entropy byte. -/

namespace Sys2Proof.Config

/-- `MEM_SIZE`: addresses 0x000..0xFFF (20_memory.md R70). -/
def memSize : Nat := 4096

/-- `PC_RESET` (70_reset_and_hazards.md R392). -/
def pcReset : Word := 0x200

/-- `LOAD_BASE` (70_reset_and_hazards.md R394). -/
def loadBase : Nat := 0x200

/-- `LOAD_MAX`: 3584 bytes, 0x1000 - 0x200 (00_scope.md R5). -/
def loadMax : Nat := 3584

/-- The number of bytes of `FONT`: 16 glyphs of 5 bytes, at 0x000..0x04F (20_memory.md R72). -/
def fontSize : Nat := 80

/-- The default `FONT` (70_reset_and_hazards.md R391). PRESUMED: the spec itself marks the table as general knowledge,
not in its source (log entry 3). The font of a machine is the field `font` of State; this is its value at reset. -/
def defaultFont : Vector Byte 80 :=
  (#v[0xF0, 0x90, 0x90, 0x90, 0xF0, 0x20, 0x60, 0x20, 0x20, 0x70, 0xF0, 0x10, 0xF0, 0x80, 0xF0, 0xF0, 0x10, 0xF0, 0x10, 0xF0] : Vector Byte 20)
  ++ (#v[0x90, 0x90, 0xF0, 0x10, 0x10, 0xF0, 0x80, 0xF0, 0x10, 0xF0, 0xF0, 0x80, 0xF0, 0x90, 0xF0, 0xF0, 0x10, 0x20, 0x40, 0x40] : Vector Byte 20)
  ++ (#v[0xF0, 0x90, 0xF0, 0x90, 0xF0, 0xF0, 0x90, 0xF0, 0x10, 0xF0, 0xF0, 0x90, 0xF0, 0x90, 0x90, 0xE0, 0x90, 0xE0, 0x90, 0xE0] : Vector Byte 20)
  ++ (#v[0xF0, 0x80, 0x80, 0x80, 0xF0, 0xE0, 0x90, 0x90, 0x90, 0xE0, 0xF0, 0x80, 0xF0, 0x80, 0xF0, 0xF0, 0x80, 0xF0, 0x80, 0x80] : Vector Byte 20)

/-- The free value of 00_scope.md R9: the n-th entropy byte, where the environment has not supplied one beforehand.
It has no body, so nothing can be proved of its value (log entry 1). -/
opaque freeEntropy : Nat → Byte

end Sys2Proof.Config
end

