-- ==== Sys2Proof/Machine/Operands.lean ====
section
/-! DEFINITION. The computed operands (30_encoding.md R102, 44_index_memory.md R266): jump and index sums, the glyph
address, the range check of a data access, decimal digits, and where a sprite's pixels land. All pure functions. -/

namespace Sys2Proof.Machine

/-- `zext_16(V[0]) + zext_16(nnn)`, neither wrapped nor masked: at most 0x10FE (42_control.md R197). -/
def offsetTarget (v0 : Byte) (nnn : Addr12) : Word := zext16 v0 + zext16 nnn

/-- The true sum `I + V[x]`, 0..0x100FE, in 17 bits (44_index_memory.md R261). -/
def indexSum (i : Word) (b : Byte) : BitVec 17 := i.setWidth 17 + b.setWidth 17

/-- `5 * (V[x] & 0xF)`, the address of the glyph of the low nibble (44_index_memory.md R262). -/
def glyphAddress (b : Byte) : Word := 5 * zext16 (b &&& 0x0F)

/-- Some byte of the `count` bytes from `base` up lies above 0xFFF (20_memory.md R73); no byte, no fault. -/
def outOfRange (base : Word) (count : Nat) : Bool :=
  decide (0 < count ∧ 0xFFF < base.toNat + (count - 1))

/-- `max(I, 0x1000)`: the first address above 0xFFF of an ascending access that reaches one (20_memory.md R73). -/
def firstBadAddress (base : Word) : Word := if base.toNat < 0x1000 then 0x1000 else base

/-- The hundreds, tens and ones digits of a byte (44_index_memory.md R263). -/
def decimalDigits (b : Byte) : List Byte := [b / 100, (b / 10) % 10, b % 10]

/-- The registers V0..Vx in ascending order, Vx included (44_index_memory.md R264, R265). -/
def regsUpTo (x : Reg) : List Reg := (List.finRange 16).filter (fun k => decide (k ≤ x))

/-- `(c0 + c) mod 64` (41_display.md R171, R172). -/
def spriteColumn (c0 : Byte) (c : Nat) : Fin 64 := ⟨(c0.toNat + c) % 64, Nat.mod_lt _ (by decide)⟩

/-- `(r0 + r) mod 32` (41_display.md R171, R172). -/
def spriteRow (r0 : Byte) (r : Nat) : Fin 32 := ⟨(r0.toNat + r) % 32, Nat.mod_lt _ (by decide)⟩

/-- `b[7 - c]`: bit 7 is the leftmost pixel of a sprite row (41_display.md R172). -/
def spriteBit (b : Byte) (c : Nat) : Bool := b.getLsbD (7 - c)

end Sys2Proof.Machine
end

