-- ==== Sys2Proof/Machine/State.lean ====
section
/-! DEFINITION. What the machine holds (10_state.md R30: "exactly the elements of the summary table"), the fault record,
the reasons a step can stop, and the state right after reset (70_reset_and_hazards.md R390). -/

namespace Sys2Proof.Machine

/-- A fault of a cycle with its info (60_exceptions.md R330). It is the content of the FAULT latch: the operation
`takeFault` writes it into State and the cycle goes on to a NEXT state (log entry 4), so no step of this model ends in
`Host.Outcome.fault`. That difference is safe: the latched state is the one R333 describes. -/
inductive Fault where
  /-- Code 1. Raised by the decode step of a cycle, on a word that 30_encoding.md R103 does not select. Safe. -/
  | illegalOpcode (word pc : Word)
  /-- Code 2. Raised by CALL with SP = 16 (42_control.md R192). Safe. -/
  | stackOverflow (pc : Word)
  /-- Code 3. Raised by the fetch step of a cycle when pc + 1 > 0xFFF (40_cycle.md R144). Safe. -/
  | fetchOutOfRange (pc : Word)
  /-- Code 4. Raised by DRW, LD_B_VX, LD_MEM_VX, LD_VX_MEM on an access above 0xFFF (20_memory.md R73). Safe. -/
  | addressOutOfRange (addr pc : Word)
  /-- Code 5. Raised by SKP, SKNP when Vx > 15 (45_keys.md R290, R291). Safe. -/
  | keyIndexOutOfRange (value : Byte) (pc : Word)
  /-- Code 6. Raised by ADD_I_VX when I + Vx > 0xFFFF (44_index_memory.md R261). Safe. -/
  | indexOverflow (sum : BitVec 17) (pc : Word)
  deriving DecidableEq, Repr

/-- Why a step has no meaning. Every instruction of the table has one, so nothing of this model raises it. -/
inductive Refusal where
  /-- Raised by an arm of exec whose instruction has no meaning yet; there is none. Safe. -/
  | notModelled (mnemonic : String)
  deriving DecidableEq, Repr

/-- The contents of MEM as the list of (address, byte) pairs that differ from the reset contents, addresses strictly
rising (`Memory.wf`). -/
abbrev Memory := List Host.Cell

/-- FB[c][r]: 64 columns of 32 pixels (10_state.md R41). -/
abbrev Framebuffer := Vector (Vector Bool 32) 64

/-- The architectural state (10_state.md), the parameter FONT, and the model's two entropy fields. -/
structure State where
  /-- V[0..15], V[15] being VF (R31, R32) -/
  v : Vector Byte 16
  /-- I (R34) -/
  i : Word
  /-- pc (R35) -/
  pc : Word
  /-- S[0..15] (R37) -/
  stack : Vector Word 16
  /-- SP, the number of occupied slots, 0..16 (R37) -/
  sp : Fin 17
  /-- DT (R39) -/
  dt : Byte
  /-- ST (R39) -/
  st : Byte
  /-- K[0..15], true while pressed (R40) -/
  keys : Vector Bool 16
  /-- FB (R41) -/
  fb : Framebuffer
  /-- RD (R42) -/
  rd : Bool
  /-- LAST (R44) -/
  last : Word
  /-- FAULT, none while not valid (R43) -/
  fault : Option Fault
  /-- MEM (R45) -/
  mem : Memory
  /-- FONT, a parameter of the block that no step writes (70_reset_and_hazards.md R391; log entry 3) -/
  font : Vector Byte 80
  /-- the bytes the environment has supplied for coming draws, the next one first (60_exceptions.md R362; log entry 1) -/
  entropy : List Byte
  /-- how many entropy bytes have been drawn, the argument of `Config.freeEntropy` (log entries 1 and 2) -/
  draws : Nat
  deriving DecidableEq, Repr

/-- The machine right after `new()` (70_reset_and_hazards.md R390, R391, R392): every buffer zero, pc = 0x200, memory at
its reset contents. FONT is the spec's default (log entry 3); no entropy byte is pinned or drawn (log entry 2). -/
def State.reset : State where
  v := Vector.replicate 16 0
  i := 0
  pc := Config.pcReset
  stack := Vector.replicate 16 0
  sp := 0
  dt := 0
  st := 0
  keys := Vector.replicate 16 false
  fb := Vector.replicate 64 (Vector.replicate 32 false)
  rd := false
  last := 0
  fault := none
  mem := []
  font := Config.defaultFont
  entropy := []
  draws := 0

end Sys2Proof.Machine
end

