-- ==== Sys2Proof/Machine/Ops.lean ====
section
/-! DEFINITION. The named operations over memory, registers, pc, stack, timers, keys, framebuffer and entropy, and
taking a fault, which the meanings and the cycle are written with. -/

namespace Sys2Proof.Machine

/-! ## Memory (20_memory.md) -/

/-- What an address with no entry reads as: its reset contents, FONT at 0x000..0x04F and 0 elsewhere
(10_state.md R45). -/
def Memory.unlisted (font : Vector Byte 80) (a : Nat) : Byte :=
  if h : a < 80 then font[a] else 0

/-- The entry of an address. -/
def Memory.lookup : Memory → Nat → Option Byte
  | [], _ => none
  | (k, b) :: m, a => if k = a then some b else Memory.lookup m a

/-- `MemRead(a, 1)`: the last byte written there, or its reset value if none (20_memory.md R80). -/
def Memory.read (font : Vector Byte 80) (m : Memory) (a : Nat) : Byte :=
  (Memory.lookup m a).getD (Memory.unlisted font a)

/-- The list without the entry of an address. -/
def Memory.erase (m : Memory) (a : Nat) : Memory := m.filter (fun p => p.1 != a)

/-- The list with an entry put in its place by address. -/
def Memory.insert : Memory → Nat → Byte → Memory
  | [], a, b => [(a, b)]
  | (k, c) :: m, a, b => if a < k then (a, b) :: (k, c) :: m else (k, c) :: Memory.insert m a b

/-- `MemWrite(a, 1, b)`: changes only the byte written (20_memory.md R71). Writing the reset contents back removes the
entry, so that equal memories are equal lists. -/
def Memory.write (font : Vector Byte 80) (m : Memory) (a : Nat) (b : Byte) : Memory :=
  if b = Memory.unlisted font a then Memory.erase m a else Memory.insert (Memory.erase m a) a b

/-- Bytes at consecutive ascending addresses, one access each (20_memory.md R74). -/
def Memory.writeBytes (font : Vector Byte 80) (m : Memory) (a : Nat) (bytes : List Byte) : Memory :=
  match bytes with
  | [] => m
  | b :: rest => Memory.writeBytes font (Memory.write font m a b) (a + 1) rest

/-- The canonical form: addresses inside 0x000..0xFFF and strictly rising, no entry equal to the reset contents. -/
def Memory.wf (font : Vector Byte 80) (m : Memory) : Bool :=
  decide (m.Pairwise (fun p q => p.1 < q.1))
    && m.all (fun p => decide (p.1 < Config.memSize) && p.2 != Memory.unlisted font p.1)

/-- The byte of MEM at an address. -/
def State.readByte (s : State) (a : Nat) : Byte := Memory.read s.font s.mem a

/-- Store bytes at consecutive ascending addresses. -/
def State.storeBytes (s : State) (a : Nat) (bytes : List Byte) : State :=
  { s with mem := Memory.writeBytes s.font s.mem a bytes }

/-! ## Registers (10_state.md) -/

/-- `V[x]` (00_scope.md R8). -/
def State.getV (s : State) (x : Reg) : Byte := s.v.get x

/-- `V[x] <- b` (00_scope.md R8). -/
def State.setV (s : State) (x : Reg) (b : Byte) : State := { s with v := s.v.set x b }

/-- Write a result, then its flag: VF last, so that with x = F the register ends holding the flag (43_alu.md, D7). -/
def State.setVFlag (s : State) (x : Reg) (result : Byte) (flag : Bool) : State :=
  (s.setV x result).setV VF (flagByte flag)

/-- The registers of the list loaded from consecutive addresses, in order (44_index_memory.md R265). -/
def State.loadRegs (s : State) (a : Nat) (regs : List Reg) : State :=
  match regs with
  | [] => s
  | x :: rest => State.loadRegs (s.setV x (s.readByte a)) (a + 1) rest

/-- `I <- w`. -/
def State.setI (s : State) (w : Word) : State := { s with i := w }

/-- `DT <- b`. -/
def State.setDt (s : State) (b : Byte) : State := { s with dt := b }

/-- `ST <- b`. -/
def State.setSt (s : State) (b : Byte) : State := { s with st := b }

/-- `pc <- target`. -/
def State.jump (s : State) (target : Word) : State := { s with pc := target }

/-- `pc <- pc + 2`, the next pc of every instruction not listed otherwise (40_cycle.md R147). -/
def State.advance (s : State) : State := s.jump (s.pc + 2)

/-- `skip(c)`: `pc <- pc + (c ? 4 : 2)` (00_scope.md R8). -/
def State.skip (s : State) (c : Bool) : State := s.jump (s.pc + if c then 4 else 2)

/-! ## The call stack (10_state.md R37, R38) -/

/-- `S[SP] <- w; SP <- SP + 1`, or none when all 16 slots are occupied. -/
def State.push (s : State) (w : Word) : Option State :=
  if h : s.sp.val < 16 then
    some { s with stack := s.stack.set s.sp.val w, sp := ⟨s.sp.val + 1, by omega⟩ }
  else none

/-- The slot a return reads: SP - 1, or slot 0 when SP = 0 (42_control.md R190, D13). -/
def State.popSlot (s : State) : Fin 16 :=
  if h : 0 < s.sp.val then ⟨s.sp.val - 1, by omega⟩ else 0

/-- `if SP > 0: SP <- SP - 1; pc <- S[SP]`; the slot is not cleared (10_state.md R38). -/
def State.popPc (s : State) : State :=
  { s with sp := s.popSlot.castSucc, pc := s.stack.get s.popSlot }

/-! ## Framebuffer and redraw flag (10_state.md R41, R42) -/

/-- `FB[c][r]`. -/
def Framebuffer.pixel (fb : Framebuffer) (c : Fin 64) (r : Fin 32) : Bool := (fb.get c).get r

/-- `FB[c][r] <- b`. -/
def Framebuffer.setPixel (fb : Framebuffer) (c : Fin 64) (r : Fin 32) (b : Bool) : Framebuffer :=
  fb.set c ((fb.get c).set r b)

/-- Every cell 0. -/
def Framebuffer.blank : Framebuffer := Vector.replicate 64 (Vector.replicate 32 false)

/-- The framebuffer written and `RD <- 1` (41_display.md R176). -/
def State.present (s : State) (fb : Framebuffer) : State := { s with fb := fb, rd := true }

/-- `RD <- 0`, the first state change of a cycle (40_cycle.md R143). -/
def State.clearRedraw (s : State) : State := { s with rd := false }

/-! ## Keys (10_state.md R40) -/

/-- `K[k]`. -/
def State.key (s : State) (k : Fin 16) : Bool := s.keys.get k

/-- The least k with K[k] = 1 (45_keys.md R292). -/
def State.leastKey (s : State) : Option (Fin 16) := (List.finRange 16).find? (fun k => s.key k)

/-! ## Entropy (00_scope.md R9, log entry 1) -/

/-- The byte `draw_entropy()` returns: the next one the environment has supplied, else a free value. -/
def State.entropyByte (s : State) : Byte :=
  match s.entropy with
  | e :: _ => e
  | [] => Config.freeEntropy s.draws

/-- One draw taken (40_cycle.md R151). -/
def State.consumeEntropy (s : State) : State :=
  { s with entropy := s.entropy.tail, draws := s.draws + 1 }

/-! ## Timers (60_exceptions.md R350) -/

/-- One step toward zero; zero stays. -/
def countDown (t : Byte) : Byte := if t = 0 then 0 else t - 1

/-- The timer step. -/
def State.timerStep (s : State) : State := { s with dt := countDown s.dt, st := countDown s.st }

/-! ## Faults (60_exceptions.md R333, R334)

There is no return from a fault: "Reset is the only way out" (R334; `Machine/Boundary.lean`). -/

/-- The state a raise leaves: RD = 0, FAULT latched, all else as it was (60_exceptions.md R333). -/
def State.latchFault (s : State) (f : Fault) : State := { s with rd := false, fault := some f }

/-- `raise F(info)`: the one way a fault is taken, by the cycle and by every meaning (log entry 4). -/
def takeFault (f : Fault) (s : State) : Host.Outcome State Fault Refusal := .next (s.latchFault f)

/-- FAULT.valid. -/
def State.faulted (s : State) : Bool := s.fault.isSome

/-! ## Fetch (40_cycle.md R144, R145) -/

/-- The fetch would leave the address space: pc + 1 > 0xFFF. -/
def State.fetchFaults (s : State) : Bool := decide (0xFFF < s.pc.toNat + 1)

/-- The big-endian word at pc and pc + 1. -/
def State.fetchWord (s : State) : Word :=
  wordOfBytes (s.readByte s.pc.toNat) (s.readByte (s.pc.toNat + 1))

/-- `LAST <- w`. -/
def State.setLast (s : State) (w : Word) : State := { s with last := w }

/-- A word stored where the next fetch reads it, in the hardware's byte order, on a block that is not faulted. -/
def State.placeWord (s : State) (w : Word) : State :=
  { (s.storeBytes s.pc.toNat [highByte w, lowByte w]) with fault := none }

end Sys2Proof.Machine
end

