-- ==== Sys2Proof/Machine/Alu.lean ====
section
/-! DEFINITION. The meanings of the register arithmetic, logic, shifts and the random byte (43_alu.md). Sums and
differences wrap modulo 256, as the operations of `Byte` do (R232); a flag is written after its result (D7). -/

namespace Sys2Proof.Machine

/-- `6xkk` (43_alu.md R220). -/
def execLdImm (x : Reg) (kk : Byte) (s : State) : Host.Outcome State Fault Refusal :=
  .next (s.setV x kk).advance

/-- `7xkk` (43_alu.md R221): no flag. -/
def execAddImm (x : Reg) (kk : Byte) (s : State) : Host.Outcome State Fault Refusal :=
  .next (s.setV x (s.getV x + kk)).advance

/-- `8xy0` (43_alu.md R222). -/
def execLdReg (x y : Reg) (s : State) : Host.Outcome State Fault Refusal :=
  .next (s.setV x (s.getV y)).advance

/-- `8xy1` (43_alu.md R223). -/
def execOr (x y : Reg) (s : State) : Host.Outcome State Fault Refusal :=
  .next (s.setV x (s.getV x ||| s.getV y)).advance

/-- `8xy2` (43_alu.md R224). -/
def execAnd (x y : Reg) (s : State) : Host.Outcome State Fault Refusal :=
  .next (s.setV x (s.getV x &&& s.getV y)).advance

/-- `8xy3` (43_alu.md R225). -/
def execXor (x y : Reg) (s : State) : Host.Outcome State Fault Refusal :=
  .next (s.setV x (s.getV x ^^^ s.getV y)).advance

/-- `8xy4` (43_alu.md R226). -/
def execAddReg (x y : Reg) (s : State) : Host.Outcome State Fault Refusal :=
  let a := s.getV x
  let b := s.getV y
  .next (s.setVFlag x (a + b) (carryFlag a b)).advance

/-- `8xy5` (43_alu.md R227). -/
def execSub (x y : Reg) (s : State) : Host.Outcome State Fault Refusal :=
  let a := s.getV x
  let b := s.getV y
  .next (s.setVFlag x (a - b) (noBorrowFlag a b)).advance

/-- `8xy6` (43_alu.md R228): Vy is not read. -/
def execShr (x _y : Reg) (s : State) : Host.Outcome State Fault Refusal :=
  let a := s.getV x
  .next (s.setVFlag x (a >>> 1) (shiftedOutRight a)).advance

/-- `8xy7` (43_alu.md R229). -/
def execSubn (x y : Reg) (s : State) : Host.Outcome State Fault Refusal :=
  let a := s.getV x
  let b := s.getV y
  .next (s.setVFlag x (b - a) (noBorrowFlag b a)).advance

/-- `8xyE` (43_alu.md R230): Vy is not read. -/
def execShl (x _y : Reg) (s : State) : Host.Outcome State Fault Refusal :=
  let a := s.getV x
  .next (s.setVFlag x (a <<< 1) (shiftedOutLeft a)).advance

/-- `Cxkk` with the drawn byte given (43_alu.md R231). -/
def execRndWith (e : Byte) (x : Reg) (kk : Byte) (s : State) : Host.Outcome State Fault Refusal :=
  .next (s.setV x (e &&& kk)).advance

/-- `Cxkk` (43_alu.md R231): exactly one draw, whatever kk is. -/
def execRnd (x : Reg) (kk : Byte) (s : State) : Host.Outcome State Fault Refusal :=
  execRndWith s.entropyByte x kk s.consumeEntropy

end Sys2Proof.Machine
end

