-- ==== Sys2Proof/Machine/Control.lean ====
section
/-! DEFINITION. The meanings of the control transfers and conditional skips (42_control.md). -/

namespace Sys2Proof.Machine

/-- `00EE` (42_control.md R190): with SP = 0 it completes, SP stays 0 and pc is loaded from S[0]. -/
def execRet (s : State) : Host.Outcome State Fault Refusal := .next s.popPc

/-- `1nnn` (42_control.md R191). -/
def execJp (nnn : Addr12) (s : State) : Host.Outcome State Fault Refusal :=
  .next (s.jump (zext16 nnn))

/-- `2nnn` (42_control.md R192). -/
def execCall (nnn : Addr12) (s : State) : Host.Outcome State Fault Refusal :=
  match s.push (s.pc + 2) with
  | some t => .next (t.jump (zext16 nnn))
  | none => takeFault (.stackOverflow s.pc) s

/-- `3xkk` (42_control.md R193). -/
def execSeImm (x : Reg) (kk : Byte) (s : State) : Host.Outcome State Fault Refusal :=
  .next (s.skip (s.getV x == kk))

/-- `4xkk` (42_control.md R194). -/
def execSneImm (x : Reg) (kk : Byte) (s : State) : Host.Outcome State Fault Refusal :=
  .next (s.skip (s.getV x != kk))

/-- `5xy0` (42_control.md R195). -/
def execSeReg (x y : Reg) (s : State) : Host.Outcome State Fault Refusal :=
  .next (s.skip (s.getV x == s.getV y))

/-- `9xy0` (42_control.md R196). -/
def execSneReg (x y : Reg) (s : State) : Host.Outcome State Fault Refusal :=
  .next (s.skip (s.getV x != s.getV y))

/-- `Bnnn` (42_control.md R197): the base register is always V0. -/
def execJpV0 (nnn : Addr12) (s : State) : Host.Outcome State Fault Refusal :=
  .next (s.jump (offsetTarget (s.getV 0) nnn))

end Sys2Proof.Machine
end

