-- ==== Sys2Proof/Machine/Display.lean ====
section
/-! DEFINITION. The meanings of 00E0 and Dxyn (41_display.md). -/

namespace Sys2Proof.Machine

/-- `00E0` (41_display.md R170). -/
def execCls (s : State) : Host.Outcome State Fault Refusal :=
  .next (s.present Framebuffer.blank).advance

/-- A draw under way: the framebuffer and the collision so far. -/
abbrev Drawing := Framebuffer × Bool

/-- One sprite bit met by one cell: a set bit toggles the cell, and collides if the cell was set. -/
def plotBit (d : Drawing) (c : Fin 64) (r : Fin 32) (bit : Bool) : Drawing :=
  if bit then
    (d.1.setPixel c r (!(d.1.pixel c r)), d.2 || collides (d.1.pixel c r) bit)
  else d

/-- The eight bits of one sprite row, leftmost first. -/
def plotRow (d : Drawing) (c0 : Byte) (row : Fin 32) (b : Byte) : Drawing :=
  (List.range 8).foldl (fun d c => plotBit d (spriteColumn c0 c) row (spriteBit b c)) d

/-- The rows of a sprite whose row r is the byte `rows r`. -/
def plotSprite (fb : Framebuffer) (c0 r0 : Byte) (n : Nat) (rows : Nat → Byte) : Drawing :=
  (List.range n).foldl (fun d r => plotRow d c0 (spriteRow r0 r) (rows r)) (fb, false)

/-- `Dxyn` (41_display.md R171, R172): coordinates and sprite bytes are read before VF is written. -/
def execDrw (x y : Reg) (n : BitVec 4) (s : State) : Host.Outcome State Fault Refusal :=
  if outOfRange s.i n.toNat then
    takeFault (.addressOutOfRange (firstBadAddress s.i) s.pc) s
  else
    let d := plotSprite s.fb (s.getV x) (s.getV y) n.toNat (fun r => s.readByte (s.i.toNat + r))
    .next ((s.setV VF (flagByte d.2)).present d.1).advance

end Sys2Proof.Machine
end

