-- ==== Sys2Proof/Machine/Index.lean ====
section
/-! DEFINITION. The meanings of the index register and memory instructions (44_index_memory.md). Every range check
precedes the first write; no memory instruction changes I (R266). -/

namespace Sys2Proof.Machine

/-- `Annn` (44_index_memory.md R260). -/
def execLdI (nnn : Addr12) (s : State) : Host.Outcome State Fault Refusal :=
  .next (s.setI (zext16 nnn)).advance

/-- `Fx1E` (44_index_memory.md R261): VF is not written. -/
def execAddIVx (x : Reg) (s : State) : Host.Outcome State Fault Refusal :=
  let t := indexSum s.i (s.getV x)
  if 0xFFFF < t.toNat then takeFault (.indexOverflow t s.pc) s
  else .next (s.setI (t.setWidth 16)).advance

/-- `Fx29` (44_index_memory.md R262). -/
def execLdFVx (x : Reg) (s : State) : Host.Outcome State Fault Refusal :=
  .next (s.setI (glyphAddress (s.getV x))).advance

/-- `Fx33` (44_index_memory.md R263). -/
def execLdBVx (x : Reg) (s : State) : Host.Outcome State Fault Refusal :=
  if outOfRange s.i 3 then takeFault (.addressOutOfRange (firstBadAddress s.i) s.pc) s
  else .next (s.storeBytes s.i.toNat (decimalDigits (s.getV x))).advance

/-- `Fx55` (44_index_memory.md R264). -/
def execLdMemVx (x : Reg) (s : State) : Host.Outcome State Fault Refusal :=
  if outOfRange s.i (x.val + 1) then takeFault (.addressOutOfRange (firstBadAddress s.i) s.pc) s
  else .next (s.storeBytes s.i.toNat ((regsUpTo x).map s.getV)).advance

/-- `Fx65` (44_index_memory.md R265). -/
def execLdVxMem (x : Reg) (s : State) : Host.Outcome State Fault Refusal :=
  if outOfRange s.i (x.val + 1) then takeFault (.addressOutOfRange (firstBadAddress s.i) s.pc) s
  else .next (s.loadRegs s.i.toNat (regsUpTo x)).advance

end Sys2Proof.Machine
end

