-- ==== Sys2Proof/Machine/Keys.lean ====
section
/-! DEFINITION. The meanings of the key instructions (45_keys.md). -/

namespace Sys2Proof.Machine

/-- The key named by a register's value, or none above 15 (45_keys.md R290, D11). -/
def keyNamed (b : Byte) : Option (Fin 16) :=
  if h : b.toNat < 16 then some ⟨b.toNat, h⟩ else none

/-- `Ex9E` (45_keys.md R290). -/
def execSkp (x : Reg) (s : State) : Host.Outcome State Fault Refusal :=
  match keyNamed (s.getV x) with
  | some k => .next (s.skip (s.key k))
  | none => takeFault (.keyIndexOutOfRange (s.getV x) s.pc) s

/-- `ExA1` (45_keys.md R291). -/
def execSknp (x : Reg) (s : State) : Host.Outcome State Fault Refusal :=
  match keyNamed (s.getV x) with
  | some k => .next (s.skip (!(s.key k)))
  | none => takeFault (.keyIndexOutOfRange (s.getV x) s.pc) s

/-- `Fx0A` (45_keys.md R292): with no key pressed nothing changes and the same word is fetched next cycle. -/
def execLdVxK (x : Reg) (s : State) : Host.Outcome State Fault Refusal :=
  match s.leastKey with
  | some k => .next (s.setV x (BitVec.ofNat 8 k.val)).advance
  | none => .next s

end Sys2Proof.Machine
end

