-- ==== Sys2Proof/Machine/Cycle.lean ====
section
/-! DEFINITION. The cycle (40_cycle.md R141): the order of fetch, decode, execute and timer step. -/

namespace Sys2Proof.Machine

/-- The end of a cycle: the timer step, unless the instruction raised a fault (40_cycle.md R149). -/
def finishCycle (o : Host.Outcome State Fault Refusal) : Host.Outcome State Fault Refusal :=
  match o with
  | .next t => if t.faulted then .next t else .next t.timerStep
  | .fault f => .fault f
  | .refused r => .refused r

/-- Decode a fetched word and execute it (40_cycle.md R146). `s` has LAST = w. -/
def decodeAndExecute (w : Word) (s : State) : Host.Outcome State Fault Refusal :=
  match decodeWord w with
  | .ok i => finishCycle (exec i s)
  | .error _ => takeFault (.illegalOpcode w s.pc) s

/-- The body of a cycle of a block that is not faulted; `s` has RD = 0 (40_cycle.md R143 to R145). -/
def fetchAndRun (s : State) : Host.Outcome State Fault Refusal :=
  if s.fetchFaults then takeFault (.fetchOutOfRange s.pc) s
  else decodeAndExecute s.fetchWord (s.setLast s.fetchWord)

/-- `cycle()`. While FAULT is valid it changes nothing (40_cycle.md R142); what the cycle returns is read off the state
after it (`State.cycleResult`, log entry 5). -/
def cycle (s : State) : Host.Outcome State Fault Refusal :=
  if s.faulted then .next s else fetchAndRun s.clearRedraw

end Sys2Proof.Machine
end

