-- ==== Sys2Proof/Machine/Step.lean ====
section
/-! DEFINITION. The machine's step, which is one `cycle`, and where a word stands so that the next step runs it. -/

namespace Sys2Proof.Machine

/-- One `cycle` request (40_cycle.md R140). -/
def step (s : State) : Host.Outcome State Fault Refusal := cycle s

/-- `s` with the instruction whose table bits are `w` stored where the next step fetches, and FAULT not valid, since a
faulted block fetches nothing (log entry 7). -/
def State.withFetchWord (s : State) (nbits w : Nat) : State := s.placeWord (tableWord nbits w)

end Sys2Proof.Machine
end

