-- ==== Sys2Proof/WellFormed.lean ====
section
/-! DEFINITION. Which words are instructions and which images may be loaded. An `Instr` is well formed by its types;
what can be ill formed is a word, and 30_encoding.md R104 lists the ill-formed ones. The list is written here with masks,
apart from the decoder, so that the two can be held against each other. -/

namespace Sys2Proof.WellFormed

/-- 0x0000..0x0FFF except 0x00E0 and 0x00EE. -/
def badFamily0 (w : Word) : Bool :=
  (w &&& 0xF000) == 0x0000 && w != 0x00E0 && w != 0x00EE

/-- 5xyN with N ≠ 0. -/
def badFamily5 (w : Word) : Bool :=
  (w &&& 0xF000) == 0x5000 && (w &&& 0x000F) != 0

/-- 8xyN with N ∈ {8, 9, A, B, C, D, F}. -/
def badFamily8 (w : Word) : Bool :=
  (w &&& 0xF000) == 0x8000 && [(0x8 : Word), 0x9, 0xA, 0xB, 0xC, 0xD, 0xF].contains (w &&& 0x000F)

/-- 9xyN with N ≠ 0. -/
def badFamily9 (w : Word) : Bool :=
  (w &&& 0xF000) == 0x9000 && (w &&& 0x000F) != 0

/-- ExKK with KK ∉ {9E, A1}. -/
def badFamilyE (w : Word) : Bool :=
  (w &&& 0xF000) == 0xE000 && !([(0x9E : Word), 0xA1].contains (w &&& 0x00FF))

/-- FxKK with KK ∉ {07, 0A, 15, 18, 1E, 29, 33, 55, 65}. -/
def badFamilyF (w : Word) : Bool :=
  (w &&& 0xF000) == 0xF000
    && !([(0x07 : Word), 0x0A, 0x15, 0x18, 0x1E, 0x29, 0x33, 0x55, 0x65].contains (w &&& 0x00FF))

/-- "The illegal words are exactly" these (30_encoding.md R104). -/
def illegalWord (w : Word) : Bool :=
  badFamily0 w || badFamily5 w || badFamily8 w || badFamily9 w || badFamilyE w || badFamilyF w

/-- A word that is an instruction. -/
def legalWord (w : Word) : Bool := !illegalWord w

/-- An image the host may load: at most 3584 bytes (70_reset_and_hazards.md R394, R395). -/
def loadableImage (bytes : List Byte) : Bool := decide (bytes.length ≤ Config.loadMax)

end Sys2Proof.WellFormed
end

