-- ==== Sys2Proof/Machine/Boundary.lean ====
section
/-! DEFINITION. The block's boundary: what the host reads of it between cycles, the write enables inside it, and what the
host may do to it (60_exceptions.md R360 to R373, 41_display.md R175, 70_reset_and_hazards.md R390 to R395). -/

namespace Sys2Proof.Machine

/-! ## The fault record (60_exceptions.md R330, R372) -/

/-- The numeric cause code. -/
def Fault.code : Fault → BitVec 3
  | .illegalOpcode _ _ => 1
  | .stackOverflow _ => 2
  | .fetchOutOfRange _ => 3
  | .addressOutOfRange _ _ => 4
  | .keyIndexOutOfRange _ _ => 5
  | .indexOverflow _ _ => 6

/-- The address of the instruction that faulted. -/
def Fault.pc : Fault → Word
  | .illegalOpcode _ pc => pc
  | .stackOverflow pc => pc
  | .fetchOutOfRange pc => pc
  | .addressOutOfRange _ pc => pc
  | .keyIndexOutOfRange _ pc => pc
  | .indexOverflow _ pc => pc

/-- The word, address, value or sum of the cause in 17 bits, 0 when the cause has none. -/
def Fault.value : Fault → BitVec 17
  | .illegalOpcode w _ => w.setWidth 17
  | .stackOverflow _ => 0
  | .fetchOutOfRange _ => 0
  | .addressOutOfRange a _ => a.setWidth 17
  | .keyIndexOutOfRange b _ => b.setWidth 17
  | .indexOverflow t _ => t

/-- The signal `fault_info`: the value in bits 32..16, pc in bits 15..0. -/
def Fault.info (f : Fault) : BitVec 33 := f.value ++ f.pc

/-! ## Outputs, read without side effect (60_exceptions.md R351, R361, R371, R372) -/

/-- What a cycle returns (40_cycle.md R150). -/
inductive CycleResult where
  | ok
  | fault (f : Fault)
  deriving DecidableEq, Repr

/-- The result of the cycle that left this state: a cycle that raises a fault, and every cycle after it, leaves FAULT
valid (40_cycle.md R142, 60_exceptions.md R333), and no other cycle does (log entry 5). -/
def State.cycleResult (s : State) : CycleResult :=
  match s.fault with
  | none => .ok
  | some f => .fault f

/-- `tone_active()`: ST ≠ 0 (60_exceptions.md R351). -/
def State.toneActive (s : State) : Bool := s.st != 0

/-- `redraw_requested()`. -/
def State.redrawRequested (s : State) : Bool := s.rd

/-- `framebuffer()`, through the read port `fb_px = FB[fb_col][fb_row]`. -/
def State.framebufferPort (s : State) (col : Fin 64) (row : Fin 32) : Bool := s.fb.pixel col row

/-- The diagnostic snapshot (pc, LAST, SP) (10_state.md R44). -/
def State.snapshot (s : State) : Word × Word × Fin 17 := (s.pc, s.last, s.sp)

/-- Fault status: FAULT. -/
def State.faultStatus (s : State) : Option Fault := s.fault

/-! ## The framebuffer write enables of the cycle that starts in a state (41_display.md R175) -/

/-- The instruction that cycle executes, none if it is already faulted or faults in fetch or decode. -/
def State.currentInstr (s : State) : Option Instr :=
  if s.faulted || s.fetchFaults then none
  else
    match decodeWord s.fetchWord with
    | .ok i => some i
    | .error _ => none

/-- Some sprite bit of value 1 maps to the cell (41_display.md R172). -/
def spriteCovers (c0 r0 : Byte) (n : Nat) (rows : Nat → Byte) (c : Fin 64) (r : Fin 32) : Bool :=
  (List.range n).any fun k => (List.range 8).any fun j =>
    spriteColumn c0 j == c && spriteRow r0 k == r && spriteBit (rows k) j

/-- `fb_we[c][r]`. -/
def State.writeEnable (s : State) (c : Fin 64) (r : Fin 32) : Bool :=
  match s.currentInstr with
  | some .cls => true
  | some (.drw x y n) =>
    !(outOfRange s.i n.toNat)
      && spriteCovers (s.getV x) (s.getV y) n.toNat (fun k => s.readByte (s.i.toNat + k)) c r
  | _ => false

/-- `fb_wd[c][r]`: 0 for 00E0, `FB[c][r] ^ 1` for Dxyn. DESIGN CHOICE (log entry 16): the spec gives the data only where
`fb_we[c][r]` is asserted; elsewhere the value is the model's, 0 or the complement of the cell, and nothing of the machine
reads it. -/
def State.writeData (s : State) (c : Fin 64) (r : Fin 32) : Bool :=
  match s.currentInstr with
  | some (.drw _ _ _) => !(s.fb.pixel c r)
  | _ => false

/-! ## What the host does to the block -/

/-- `set_key(index, pressed)` (60_exceptions.md R360). -/
def State.setKey (s : State) (k : Fin 16) (pressed : Bool) : State := { s with keys := s.keys.set k pressed }

/-- The result of a load. -/
inductive LoadResult where
  | ok
  | programTooLarge
  deriving DecidableEq, Repr

/-- `load_program(bytes)`: all or nothing (70_reset_and_hazards.md R394, R395, 60_exceptions.md R331). -/
def State.loadProgram (s : State) (bytes : List Byte) : State × LoadResult :=
  if WellFormed.loadableImage bytes then (s.storeBytes Config.loadBase bytes, .ok) else (s, .programTooLarge)

/-- The block right after `new()` with this FONT (70_reset_and_hazards.md R390, R391). -/
def State.newWith (font : Vector Byte 80) : State := { State.reset with font := font }

/-- `new()` on a block in use: all its state discarded; FONT and the entropy source are not its state, and the count of
draws goes on, so that later draws are fresh (log entry 13). -/
def State.renew (s : State) : State :=
  { State.reset with font := s.font, entropy := s.entropy, draws := s.draws }

/-- The entropy source a cycle request brings with it (60_exceptions.md R362): a given byte, or one left free. -/
def State.withEntropy (s : State) (source : Option Byte) : State := { s with entropy := source.toList }

/-- A move of the host that touches the block (60_exceptions.md R371); the reads above touch nothing. -/
inductive HostAction where
  | new
  | loadProgram (bytes : List Byte)
  | setKey (k : Fin 16) (pressed : Bool)
  | cycle (source : Option Byte)
  deriving DecidableEq, Repr

/-- The block with what the "admitted when" column of 60_exceptions.md R371 asks about the past of a run
(log entry 8). -/
structure Bench where
  /-- the block -/
  block : State
  /-- a program has been loaded since reset (70_reset_and_hazards.md R393: at most one load) -/
  loaded : Bool
  /-- a cycle has been requested since reset -/
  started : Bool
  deriving DecidableEq, Repr

/-- A constructed block with this FONT, before any other action (60_exceptions.md R373). -/
def Bench.init (font : Vector Byte 80) : Bench := ⟨State.newWith font, false, false⟩

/-- One host action; none where the table does not admit it, or should a step of the block stop (it never does).
DESIGN CHOICE (log entry 17): `setKey` is admitted after a reset and before the load too, where the spec's boot order
(70_reset_and_hazards.md R393) names key writes only after it and its table (60_exceptions.md R371) says only "between
cycles". -/
def Bench.act (b : Bench) : HostAction → Option Bench
  | .new => some ⟨b.block.renew, false, false⟩
  | .loadProgram bytes =>
    if b.loaded || b.started || b.block.faulted then none
    else
      let (s, r) := b.block.loadProgram bytes
      some { b with block := s, loaded := r == .ok }
  | .setKey k pressed =>
    if b.block.faulted then none else some { b with block := b.block.setKey k pressed }
  | .cycle source =>
    match step (b.block.withEntropy source) with
    | .next s => some { b with block := s, started := true }
    | .fault _ => none
    | .refused _ => none

/-- A run: a finite sequence of admitted host actions (70_reset_and_hazards.md R401, D28). -/
def Bench.run (b : Bench) : List HostAction → Option Bench
  | [] => some b
  | a :: rest =>
    match b.act a with
    | some b' => b'.run rest
    | none => none

end Sys2Proof.Machine
end

