-- ==== Sys2Proof/Safety.lean ====
section
/-! DEFINITION. The terms claims are made in: the spec's tables read as functions of an instruction and a state (which
registers it reads and writes, its next pc, its fault, the bytes it stores), the invariant of the block, and what a run
reaches. None of them is used by the machine. -/

namespace Sys2Proof.Safety

open Sys2Proof.Machine

/-! ## The fetched word and the timers, in numbers -/

/-- The number of the word at pc, high byte first (40_cycle.md R144). -/
def wordAtPc (s : State) : Word :=
  BitVec.ofNat 16 (256 * (s.readByte s.pc.toNat).toNat + (s.readByte (s.pc.toNat + 1)).toNat)

/-- A timer one step nearer to zero, zero staying zero (60_exceptions.md R350). -/
def countedDown (t : Byte) : Byte := BitVec.ofNat 8 (t.toNat - 1)

/-- `v mod 256` as a byte. -/
def byteOf (n : Nat) : Byte := BitVec.ofNat 8 n

/-! ## The tables of the spec -/

/-- The registers an instruction may write, the "writes" column of 10_state.md R33. -/
def writes (i : Instr) (k : Reg) : Prop :=
  match i with
  | .seImm _ _ | .sneImm _ _ | .skp _ | .sknp _ | .ldDtVx _ | .ldStVx _ | .addIVx _ | .ldFVx _ | .ldBVx _ => False
  | .seReg _ _ | .sneReg _ _ => False
  | .ldImm x _ | .rnd x _ | .ldVxDt x | .ldVxK x => k = x
  | .addImm x _ => k = x
  | .ldReg x _ => k = x
  | .or x _ | .and x _ | .xor x _ => k = x
  | .addReg x _ | .sub x _ | .subn x _ => k = x ∨ k = VF
  | .shr x _ | .shl x _ => k = x ∨ k = VF
  | .jpV0 _ => False
  | .drw _ _ _ => k = VF
  | .ldMemVx _ => False
  | .ldVxMem x => k ≤ x
  | .cls | .ret | .jp _ | .call _ | .ldI _ => False

/-- The registers an instruction reads, the "reads" column of 10_state.md R33. -/
def reads (i : Instr) (k : Reg) : Prop :=
  match i with
  | .seImm x _ | .sneImm x _ | .skp x | .sknp x | .ldDtVx x | .ldStVx x | .addIVx x | .ldFVx x | .ldBVx x => k = x
  | .seReg x y | .sneReg x y => k = x ∨ k = y
  | .ldImm _ _ | .rnd _ _ | .ldVxDt _ | .ldVxK _ => False
  | .addImm x _ => k = x
  | .ldReg _ y => k = y
  | .or x y | .and x y | .xor x y => k = x ∨ k = y
  | .addReg x y | .sub x y | .subn x y => k = x ∨ k = y
  | .shr x _ | .shl x _ => k = x
  | .jpV0 _ => k = 0
  | .drw x y _ => k = x ∨ k = y
  | .ldMemVx x => k ≤ x
  | .ldVxMem _ => False
  | .cls | .ret | .jp _ | .call _ | .ldI _ => False

/-- The instructions that write VF as a flag (10_state.md R32). -/
def writesFlag : Instr → Prop
  | .addReg _ _ | .sub _ _ | .shr _ _ | .subn _ _ | .shl _ _ | .drw _ _ _ => True
  | _ => False

/-- The slot a return reads: SP - 1, or 0 when SP = 0 (42_control.md R190). -/
def returnSlot (s : State) : Fin 16 := ⟨s.sp.val - 1, by omega⟩

/-- The table of 40_cycle.md R147, for an instruction that raises no fault. -/
def nextPc (i : Instr) (s : State) : Word :=
  match i with
  | .jp nnn => BitVec.ofNat 16 nnn.toNat
  | .call nnn => BitVec.ofNat 16 nnn.toNat
  | .ret => s.stack.get (returnSlot s)
  | .jpV0 nnn => BitVec.ofNat 16 ((s.getV 0).toNat + nnn.toNat)
  | .seImm x kk => if s.getV x = kk then s.pc + 4 else s.pc + 2
  | .sneImm x kk => if s.getV x ≠ kk then s.pc + 4 else s.pc + 2
  | .seReg x y => if s.getV x = s.getV y then s.pc + 4 else s.pc + 2
  | .sneReg x y => if s.getV x ≠ s.getV y then s.pc + 4 else s.pc + 2
  | .skp x => if ∃ k : Fin 16, k.val = (s.getV x).toNat ∧ s.key k = true then s.pc + 4 else s.pc + 2
  | .sknp x => if ∃ k : Fin 16, k.val = (s.getV x).toNat ∧ s.key k = true then s.pc + 2 else s.pc + 4
  | .ldVxK _ => if ∃ k : Fin 16, s.key k = true then s.pc + 2 else s.pc
  | _ => s.pc + 2

/-- How many bytes an instruction stores from I up (20_memory.md R77, port EXEC-W). -/
def storedCount : Instr → Nat
  | .ldBVx _ => 3
  | .ldMemVx x => x.val + 1
  | _ => 0

/-- `AddressOutOfRange(max(I, 0x1000), pc)` (20_memory.md R73). -/
def badAccess (s : State) : Fault := .addressOutOfRange (BitVec.ofNat 16 (max s.i.toNat 0x1000)) s.pc

/-- The instruction's own fault, if any (60_exceptions.md R330, R335). -/
def ownFault (i : Instr) (s : State) : Option Fault :=
  match i with
  | .call _ => if s.sp.val = 16 then some (.stackOverflow s.pc) else none
  | .drw _ _ n => if 0 < n.toNat ∧ 0xFFF < s.i.toNat + n.toNat - 1 then some (badAccess s) else none
  | .ldBVx _ => if 0xFFF < s.i.toNat + 2 then some (badAccess s) else none
  | .ldMemVx x => if 0xFFF < s.i.toNat + x.val then some (badAccess s) else none
  | .ldVxMem x => if 0xFFF < s.i.toNat + x.val then some (badAccess s) else none
  | .skp x | .sknp x => if 15 < (s.getV x).toNat then some (.keyIndexOutOfRange (s.getV x) s.pc) else none
  | .addIVx x =>
    if 0xFFFF < s.i.toNat + (s.getV x).toNat then
      some (.indexOverflow (BitVec.ofNat 17 (s.i.toNat + (s.getV x).toNat)) s.pc)
    else none
  | _ => none

/-- The fault a cycle of a block that is not faulted raises, the first check that fails (60_exceptions.md R335). -/
def cycleFault (s : State) : Option Fault :=
  if 0xFFF < s.pc.toNat + 1 then some (.fetchOutOfRange s.pc)
  else
    match decodeWord (wordAtPc s) with
    | .error _ => some (.illegalOpcode (wordAtPc s) s.pc)
    | .ok i => ownFault i s

/-- The state an instruction is executed in: RD cleared, LAST the fetched word (40_cycle.md R141). -/
def executing (s : State) : State := { s with rd := false, last := wordAtPc s }

/-- Some bit of value 1 of the n-row sprite at I, drawn at (V[x], V[y]), maps to the cell (c, r)
(41_display.md R171, R172). -/
def covered (x y : Reg) (n : BitVec 4) (s : State) (c : Fin 64) (r : Fin 32) : Prop :=
  ∃ row col : Nat, row < n.toNat ∧ col < 8 ∧ ((s.getV x).toNat + col) % 64 = c.val ∧
    ((s.getV y).toNat + row) % 32 = r.val ∧ (s.readByte (s.i.toNat + row)).getLsbD (7 - col) = true

/-- `n` cycles one after another, each completed without fault and each executing an instruction that `allowed` admits,
lead from the one state to the other. -/
def completedCycles (allowed : Instr → Prop) : Nat → State → State → Prop
  | 0, s, t => s = t
  | n + 1, s, t => ∃ u i, s.fault = none ∧ decodeWord (wordAtPc s) = .ok i ∧ allowed i ∧ step s = .next u ∧
      u.fault = none ∧ completedCycles allowed n u t

/-! ## The invariant and the runs -/

/-- What every reachable state satisfies. SP ≤ 16 (10_state.md R37) and "every cell is 0 or 1" (R41) hold by the types
of State and are not repeated here. -/
structure Inv (s : State) : Prop where
  /-- memory is in its canonical form, so it lists only addresses 0x000..0xFFF (20_memory.md R70; log
  entry 9) -/
  memory_canonical : Memory.wf s.font s.mem = true
  /-- "after any executed instruction pc is at most 0x10FE" (10_state.md R36) -/
  pc_bound : s.pc.toNat ≤ 0x10FE
  /-- a pushed value is at most 0x1000 (10_state.md R36) -/
  stack_bound : ∀ k : Fin 16, (s.stack.get k).toNat ≤ 0x1000
  /-- a latched fault is precise: its pc still addresses the faulting instruction, and RD is 0
  (60_exceptions.md R333) -/
  fault_precise : ∀ f, s.fault = some f → f.pc = s.pc ∧ s.rd = false

/-- Some run of admitted host actions, from a constructed block with some FONT, ends in this state. -/
def Reachable (s : State) : Prop :=
  ∃ (font : Vector Byte 80) (actions : List HostAction) (b : Bench),
    (Bench.init font).run actions = some b ∧ b.block = s

end Sys2Proof.Safety
end

