-- ==== Sys2Proof/Certificates/Slice0/Obligations.lean ====
section
/-! DEFINITION. The statements for the provers. Most results have the shape `exec i s = .next t` for a t that agrees with s
in every field but those named, so that a result, its frame and its completion are one statement. -/

open Sys2Proof Sys2Proof.Machine Sys2Proof.Safety

/-! ## Reset, load and the host -/

/-- 70_reset_and_hazards.md R390: what reset leaves, for every FONT, and that a reset while running discards all state.
That the model's own fields, the entropy source and the count of draws, go on across it is the model's choice (log
entry 13). -/
def Obligations.ResetGivesTheStatedValues : Prop :=
  (∀ font : Vector Byte 80, ∀ s, s = State.newWith font →
    (∀ x, s.getV x = 0) ∧ s.i = 0 ∧ s.pc = 0x200 ∧ (∀ k, s.stack.get k = 0) ∧ s.sp = 0 ∧ s.dt = 0 ∧ s.st = 0 ∧
    (∀ k, s.key k = false) ∧ (∀ c r, s.fb.pixel c r = false) ∧ s.rd = false ∧ s.last = 0 ∧ s.fault = none ∧
    (∀ a : Fin 80, s.readByte a.val = font.get a) ∧ (∀ a, 80 ≤ a → a < 0x1000 → s.readByte a = 0)) ∧
  State.reset = State.newWith State.reset.font ∧
  (∀ s : State, s.renew = { State.newWith s.font with entropy := s.entropy, draws := s.draws })

/-- 70_reset_and_hazards.md R396, which the spec marks as derived: with no load or a load of 0 bytes the first cycle raises IllegalOpcode(0x0000, 0x200),
and running into two 0 bytes does so anywhere. -/
def Obligations.RunningIntoZeroBytesFaults : Prop :=
  (∀ font, step (State.newWith font) =
    .next { State.newWith font with fault := some (.illegalOpcode 0x0000 0x200) }) ∧
  (∀ s : State, s.loadProgram [] = (s, .ok)) ∧
  (∀ s : State, s.fault = none → s.pc.toNat ≤ 0xFFE → s.readByte s.pc.toNat = 0 → s.readByte (s.pc.toNat + 1) = 0 →
    step s = .next { s with rd := false, last := 0, fault := some (.illegalOpcode 0x0000 s.pc) })

/-- 70_reset_and_hazards.md R394, R395: a load of at most 3584 bytes writes exactly its bytes from 0x200 up, a longer one
writes nothing. -/
def Obligations.LoadProgramIsAllOrNothing : Prop :=
  ∀ (s : State) (bytes : List Byte),
    (bytes.length ≤ 3584 → ∃ t, s.loadProgram bytes = (t, .ok) ∧ t = { s with mem := t.mem } ∧
      (∀ (j : Nat) (h : j < bytes.length), t.readByte (0x200 + j) = bytes[j]) ∧
      (∀ a, a < 0x200 ∨ 0x200 + bytes.length ≤ a → t.readByte a = s.readByte a)) ∧
    (3584 < bytes.length → s.loadProgram bytes = (s, .programTooLarge))

/-- 60_exceptions.md R371, 70_reset_and_hazards.md R393: the host may load a program only after a reset, before the first
cycle, at most once, and only while FAULT is not valid; and what the record of a run, `loaded` and `started`, says of the
moves made since the last reset. The record, and that a rejected load may be tried again, are the model's reading (log
entry 8). -/
def Obligations.LoadIsAdmittedOnceBeforeTheFirstCycle : Prop :=
  (∀ (b : Bench) (bytes : List Byte),
    (b.loaded = false → b.started = false → b.block.fault = none →
      b.act (.loadProgram bytes) = some
        ⟨(b.block.loadProgram bytes).1, decide (bytes.length ≤ 3584), false⟩) ∧
    ((b.loaded = true ∨ b.started = true ∨ b.block.fault ≠ none) → b.act (.loadProgram bytes) = none)) ∧
  (∀ (b b' : Bench) (a : HostAction), b.act a = some b' →
    (b'.loaded = true ↔ a ≠ .new ∧
      (b.loaded = true ∨ ∃ bytes : List Byte, a = .loadProgram bytes ∧ bytes.length ≤ 3584)) ∧
    (b'.started = true ↔ a ≠ .new ∧ (b.started = true ∨ ∃ source, a = .cycle source))) ∧
  (∀ font, (Bench.init font).loaded = false ∧ (Bench.init font).started = false)

/-- 60_exceptions.md R360: `set_key` writes one key and nothing else, and is admitted between cycles while FAULT is not
valid. That this holds before the program load too is the model's choice (log entry 17). -/
def Obligations.SetKeyWritesOneKey : Prop :=
  ∀ (b : Bench) (k : Fin 16) (pressed : Bool),
    (b.block.fault = none → ∃ t, b.act (.setKey k pressed) = some { b with block := t } ∧
      t = { b.block with keys := t.keys } ∧ t.key k = pressed ∧ ∀ j, j ≠ k → t.key j = b.block.key j) ∧
    (b.block.fault ≠ none → b.act (.setKey k pressed) = none)

/-- 60_exceptions.md R334: while FAULT is valid the only host action that changes the block's state is reset. A cycle may
bring another entropy source with it; that field is the environment's and the model's choice (log entry 1), and
`started` is the model's record of the run (log entry 8). -/
def Obligations.OnlyResetLeavesAFault : Prop :=
  ∀ b : Bench, b.block.fault ≠ none →
    (∀ k pressed, b.act (.setKey k pressed) = none) ∧
    (∀ bytes, b.act (.loadProgram bytes) = none) ∧
    (∀ source, b.act (.cycle source) =
      some { b with block := { b.block with entropy := source.toList }, started := true }) ∧
    (∃ b', b.act .new = some b' ∧ b'.block.fault = none)

/-- 60_exceptions.md R351, R372 and 10_state.md R44: the tone, the snapshot and the numbers of the fault record. -/
def Obligations.BoundaryOutputsAreAsTabled : Prop :=
  ∀ (s : State) (w pc addr : Word) (b : Byte) (t : BitVec 17),
    (s.toneActive = true ↔ s.st.toNat ≠ 0) ∧ s.snapshot = (s.pc, s.last, s.sp) ∧
    ((Fault.illegalOpcode w pc).code = 1 ∧ (Fault.stackOverflow pc).code = 2 ∧ (Fault.fetchOutOfRange pc).code = 3 ∧
      (Fault.addressOutOfRange addr pc).code = 4 ∧ (Fault.keyIndexOutOfRange b pc).code = 5 ∧
      (Fault.indexOverflow t pc).code = 6) ∧
    ((Fault.illegalOpcode w pc).info.toNat = 0x10000 * w.toNat + pc.toNat ∧
      (Fault.stackOverflow pc).info.toNat = pc.toNat ∧ (Fault.fetchOutOfRange pc).info.toNat = pc.toNat ∧
      (Fault.addressOutOfRange addr pc).info.toNat = 0x10000 * addr.toNat + pc.toNat ∧
      (Fault.keyIndexOutOfRange b pc).info.toNat = 0x10000 * b.toNat + pc.toNat ∧
      (Fault.indexOverflow t pc).info.toNat = 0x10000 * t.toNat + pc.toNat)

/-! ## Encoding -/

/-- Every instruction, with every operand at every value, is what its encoding decodes to, and decoding takes exactly its
two bytes (30_encoding.md R100, R101). -/
def Obligations.EncodeThenDecodeIsIdentity : Prop :=
  ∀ i : Instr, decodeWord (encode i) = .ok i ∧
    ∀ rest : List Byte, decodeBytes (encodeBytes i ++ rest) = .ok (i, rest)

/-- Each word is read as at most one instruction and no bit of it is dropped: an instruction's encoding is the word it was
decoded from (30_encoding.md R103, R106: the y of 8xy6 and 8xyE is decoded). -/
def Obligations.DecodedWordEncodesBack : Prop :=
  ∀ (w : Word) (i : Instr), decodeWord w = .ok i → encode i = w

/-- 30_encoding.md R104: the words that decode to nothing are exactly the listed ones, and a cycle that fetches one raises
IllegalOpcode(w, pc) and changes no register and no memory. -/
def Obligations.IllegalWordsAreExactlyTheListed : Prop :=
  (∀ w : Word, (∃ e, decodeWord w = .error e) ↔
    (w.toNat < 0x1000 ∧ w ≠ 0x00E0 ∧ w ≠ 0x00EE) ∨
    (w.toNat / 0x1000 = 0x5 ∧ w.toNat % 16 ≠ 0) ∨
    (w.toNat / 0x1000 = 0x9 ∧ w.toNat % 16 ≠ 0) ∨
    (w.toNat / 0x1000 = 0x8 ∧ w.toNat % 16 ∈ [0x8, 0x9, 0xA, 0xB, 0xC, 0xD, 0xF]) ∨
    (w.toNat / 0x1000 = 0xE ∧ w.toNat % 256 ∉ [0x9E, 0xA1]) ∨
    (w.toNat / 0x1000 = 0xF ∧ w.toNat % 256 ∉ [0x07, 0x0A, 0x15, 0x18, 0x1E, 0x29, 0x33, 0x55, 0x65])) ∧
  (∀ s : State, s.fault = none → s.pc.toNat ≤ 0xFFE → (∃ e, decodeWord (wordAtPc s) = .error e) →
    step s = .next { s with rd := false, last := wordAtPc s, fault := some (.illegalOpcode (wordAtPc s) s.pc) })

/-- The check of WellFormed, written with masks from the list of 30_encoding.md R104, and the decoder agree. -/
def Obligations.WellFormedWordsAreTheDecodedOnes : Prop :=
  ∀ w : Word, WellFormed.legalWord w = true ↔ ∃ i, decodeWord w = .ok i

/-- Words written out from the encodings of 30_encoding.md R101, R103: eleven that decode, among them one of each format
(Z, A, B, R, D, X) and of each family that checks more than the top nibble (0, 5, 8, 9, E, F), and one that does not. -/
def Obligations.SampleWordsDecode : Prop :=
  decodeWord 0x00E0 = .ok .cls ∧ decodeWord 0x00EE = .ok .ret ∧ decodeWord 0x2ABC = .ok (.call 0xABC) ∧
  decodeWord 0x3A42 = .ok (.seImm 10 0x42) ∧ decodeWord 0x5120 = .ok (.seReg 1 2) ∧
  decodeWord 0x8EF7 = .ok (.subn 14 15) ∧ decodeWord 0x9E10 = .ok (.sneReg 14 1) ∧ decodeWord 0xD125 = .ok (.drw 1 2 5) ∧
  decodeWord 0xE5A1 = .ok (.sknp 5) ∧ decodeWord 0xFB33 = .ok (.ldBVx 11) ∧
  decodeTableWord 16 0xC30F = some (.rnd 3 0x0F) ∧ decodeTableWord 16 0x5121 = none

/-! ## The cycle -/

/-- 40_cycle.md R141: a step of a block that is not faulted, whose fetched word decodes to i, is i executed with RD cleared
and LAST written, then the timer step unless i raised a fault. -/
def Obligations.StepExecutesTheDecodedInstruction : Prop :=
  ∀ (s : State) (i : Instr), s.fault = none → s.pc.toNat ≤ 0xFFE → decodeWord (wordAtPc s) = .ok i →
    ∃ t, exec i (executing s) = .next t ∧
      (t.fault = none → step s = .next { t with dt := countedDown t.dt, st := countedDown t.st }) ∧
      (t.fault ≠ none → step s = .next t)

/-- 40_cycle.md R144: a fetch past 0xFFF raises FetchOutOfRange(pc) and nothing else happens; otherwise the word is
`(b1 << 8) | b2`, as LAST shows after every cycle. -/
def Obligations.FetchReadsTheBigEndianWord : Prop :=
  ∀ s : State, s.fault = none →
    (0xFFF < s.pc.toNat + 1 → step s = .next { s with rd := false, fault := some (.fetchOutOfRange s.pc) }) ∧
    (s.pc.toNat + 1 ≤ 0xFFF → ∃ t, step s = .next t ∧
      t.last.toNat = 256 * (s.readByte s.pc.toNat).toNat + (s.readByte (s.pc.toNat + 1)).toNat)

/-- 40_cycle.md R142: a cycle of a faulted block changes no state, draws no entropy and returns the latched fault, and
only reset clears FAULT. -/
def Obligations.FaultedBlockChangesNothing : Prop :=
  ∀ (s : State) (f : Fault), s.fault = some f → step s = .next s ∧ s.cycleResult = .fault f ∧
    ∀ (b b' : Bench) (a : HostAction), b.block = s → b.act a = some b' → a ≠ .new → b'.block.fault = some f

/-- Every instruction in every state ends in a next state, and so does every step: with its own fault taken if the table
of 60_exceptions.md R330 gives one, otherwise with FAULT as it was. -/
def Obligations.ExecutionEndsInANextState : Prop :=
  (∀ (i : Instr) (s : State), ∃ t, exec i s = .next t ∧
    (∀ f, ownFault i s = some f → t = { s with rd := false, fault := some f }) ∧
    (ownFault i s = none → t.fault = s.fault)) ∧
  (∀ s : State, ∃ t, step s = .next t)

/-- 60_exceptions.md R333: a cycle that raises a fault leaves every element as it was, but RD = 0, LAST as fetched, and
FAULT latched with the pc of the faulting instruction; the cycle returns it. -/
def Obligations.RaisedFaultIsPrecise : Prop :=
  ∀ (s t : State) (f : Fault), s.fault = none → step s = .next t → t.fault = some f →
    t = { s with rd := false, last := t.last, fault := some f } ∧ f.pc = s.pc ∧ t.pc = s.pc ∧
    t.last = (if 0xFFF < s.pc.toNat + 1 then s.last else wordAtPc s) ∧ t.cycleResult = .fault f

/-- 60_exceptions.md R335: the fault a cycle leaves is that of the first check that fails, in the order latched, fetch,
decode, the instruction's own cause. -/
def Obligations.FirstFailedCheckIsReported : Prop :=
  ∀ s t : State, step s = .next t →
    (∀ f, s.fault = some f → t.fault = some f) ∧ (s.fault = none → t.fault = cycleFault s)

/-- 60_exceptions.md R350: both timers step down by one, staying at 0, at the end of every completed cycle, whatever the
instruction; a cycle that faults has no timer step. -/
def Obligations.TimersStepInEveryCompletedCycle : Prop :=
  ∀ (s t : State) (i : Instr), s.fault = none → s.pc.toNat ≤ 0xFFE → decodeWord (wordAtPc s) = .ok i →
    step s = .next t →
    (t.fault = none →
      t.dt.toNat = (match i with | .ldDtVx x => (s.getV x).toNat | _ => s.dt.toNat) - 1 ∧
      t.st.toNat = (match i with | .ldStVx x => (s.getV x).toNat | _ => s.st.toNat) - 1) ∧
    (t.fault ≠ none → t.dt = s.dt ∧ t.st = s.st)

/-- 41_display.md R176: after a cycle RD = 1 exactly when its instruction was a completed 00E0 or Dxyn. -/
def Obligations.RedrawFlagMarksACompletedDraw : Prop :=
  ∀ s t : State, s.fault = none → step s = .next t →
    (t.rd = true ↔ t.fault = none ∧
      (decodeWord (wordAtPc s) = .ok .cls ∨ ∃ x y n, decodeWord (wordAtPc s) = .ok (.drw x y n)))

/-- 40_cycle.md R151: a step takes exactly one entropy draw when it executes Cxkk, and otherwise none. The fields that show
a draw, `draws` and `entropy`, are the model's choice (log entry 1): the spec holds no entropy in the block's state. -/
def Obligations.EntropyIsDrawnOnlyByRnd : Prop :=
  ∀ s t : State, step s = .next t →
    ((s.fault = none ∧ s.pc.toNat ≤ 0xFFE ∧ ∃ x kk, decodeWord (wordAtPc s) = .ok (.rnd x kk)) →
      t.draws = s.draws + 1 ∧ t.entropy = s.entropy.tail) ∧
    (¬(s.fault = none ∧ s.pc.toNat ≤ 0xFFE ∧ ∃ x kk, decodeWord (wordAtPc s) = .ok (.rnd x kk)) →
      t.draws = s.draws ∧ t.entropy = s.entropy)

/-- No step writes key state (10_state.md R40) or FONT (70_reset_and_hazards.md R391). -/
def Obligations.StepLeavesKeysAndFont : Prop :=
  ∀ s t : State, step s = .next t → t.keys = s.keys ∧ t.font = s.font

/-- 40_cycle.md R147: the next pc of every instruction, and that a fault writes no pc. -/
def Obligations.NextPcFollowsTheTable : Prop :=
  ∀ (i : Instr) (s t : State), exec i s = .next t →
    (ownFault i s = none → t.pc = nextPc i s) ∧ (ownFault i s ≠ none → t.pc = s.pc)

/-- 10_state.md R33, which the spec marks as derived: an instruction changes no register outside its "writes" entry,
and what it does does not depend on a register outside its "reads" entry: with another value b in that register beforehand
everything else ends the same, and the register itself ends the same too, unless both runs leave it alone. -/
def Obligations.RegisterAccessFollowsTheTable : Prop :=
  ∀ (i : Instr) (s : State) (k : Reg),
    (∀ t, exec i s = .next t → ¬writes i k → t.getV k = s.getV k) ∧
    (¬reads i k → ∀ b : Byte, ∃ t t', exec i s = .next t ∧ exec i (s.setV k b) = .next t' ∧
      t'.setV k 0 = t.setV k 0 ∧ (t'.getV k = t.getV k ∨ (t.getV k = s.getV k ∧ t'.getV k = b)))

/-- 10_state.md R32: every flag written into VF is 0 or 1, and no other instruction changes VF unless it is its ordinary
destination. -/
def Obligations.FlagsAreZeroOrOne : Prop :=
  ∀ (i : Instr) (s t : State), exec i s = .next t →
    (writesFlag i → ownFault i s = none → t.getV VF = 0 ∨ t.getV VF = 1) ∧
    (¬writesFlag i → ¬writes i VF → t.getV VF = s.getV VF)

/-- I is written by Annn, Fx29 and Fx1E alone (10_state.md R34), the slots by 2nnn and SP by 2nnn and 00EE (R37), DT by
Fx15 and ST by Fx18 (R39, the timer step apart), FB by 00E0 and Dxyn (R41), LAST by no instruction (R44). -/
def Obligations.SpecialStateIsWrittenByItsInstructions : Prop :=
  ∀ (i : Instr) (s t : State), exec i s = .next t →
    ((∀ nnn x, i ≠ .ldI nnn ∧ i ≠ .ldFVx x ∧ i ≠ .addIVx x) → t.i = s.i) ∧
    ((∀ nnn, i ≠ .call nnn) → t.stack = s.stack) ∧
    ((∀ nnn, i ≠ .call nnn ∧ i ≠ .ret) → t.sp = s.sp) ∧
    ((∀ x, i ≠ .ldDtVx x) → t.dt = s.dt) ∧ ((∀ x, i ≠ .ldStVx x) → t.st = s.st) ∧
    ((∀ x y n, i ≠ .cls ∧ i ≠ .drw x y n) → t.fb = s.fb) ∧ t.last = s.last

/-- Every byte of memory reads as before but those an instruction stores, from I up (20_memory.md R71, R77): all of them
for an instruction that stores nothing or that faults. -/
def Obligations.MemoryChangesOnlyWhereStored : Prop :=
  ∀ (i : Instr) (s t : State), exec i s = .next t →
    (∀ a, a < s.i.toNat ∨ s.i.toNat + storedCount i ≤ a → t.readByte a = s.readByte a) ∧
    (ownFault i s ≠ none → ∀ a, t.readByte a = s.readByte a)

/-! ## Display -/

/-- 41_display.md R170. -/
def Obligations.ClsClearsTheFramebuffer : Prop :=
  decodeWord 0x00E0 = .ok .cls ∧
  ∀ s : State, ∃ t, exec .cls s = .next t ∧ t = { s with fb := t.fb, rd := true, pc := s.pc + 2 } ∧
    ∀ c r, t.fb.pixel c r = false

/-- 41_display.md R171, R172: a draw toggles exactly the covered cells, VF says whether a covered cell was set, and a
sprite byte above 0xFFF faults before any pixel changes. -/
def Obligations.DrwTogglesTheCoveredCells : Prop :=
  ∀ (x y : Reg) (n : BitVec 4),
    decodeWord (BitVec.ofNat 16 (0xD000 + 0x100 * x.val + 0x10 * y.val + n.toNat)) = .ok (.drw x y n) ∧
    ∀ s : State,
      (n.toNat = 0 ∨ s.i.toNat + n.toNat - 1 ≤ 0xFFF → ∃ t, exec (.drw x y n) s = .next t ∧
        t = { s with v := t.v, fb := t.fb, rd := true, pc := s.pc + 2 } ∧
        (∀ c r, (covered x y n s c r → t.fb.pixel c r = !(s.fb.pixel c r)) ∧
          (¬covered x y n s c r → t.fb.pixel c r = s.fb.pixel c r)) ∧
        ((∃ c r, covered x y n s c r ∧ s.fb.pixel c r = true) → t.getV VF = 1) ∧
        (¬(∃ c r, covered x y n s c r ∧ s.fb.pixel c r = true) → t.getV VF = 0) ∧
        (∀ k, k ≠ VF → t.getV k = s.getV k)) ∧
      (0 < n.toNat → 0xFFF < s.i.toNat + n.toNat - 1 → exec (.drw x y n) s = .next
        { s with rd := false, fault := some (.addressOutOfRange (BitVec.ofNat 16 (max s.i.toNat 0x1000)) s.pc) })

/-- 41_display.md R175, which the spec marks as derived (the data where no enable is asserted is the model's choice, log
entry 16): the write enables of a cycle, and that they and their data are all that changes the
framebuffer. -/
def Obligations.WriteEnablesDriveTheFramebuffer : Prop :=
  ∀ s t : State, step s = .next t → ∀ (c : Fin 64) (r : Fin 32),
    t.fb.pixel c r = (if s.writeEnable c r then s.writeData c r else s.fb.pixel c r) ∧
    (s.writeEnable c r = true ↔ s.fault = none ∧ t.fault = none ∧
      (decodeWord (wordAtPc s) = .ok .cls ∨
        ∃ x y n, decodeWord (wordAtPc s) = .ok (.drw x y n) ∧ covered x y n s c r)) ∧
    (decodeWord (wordAtPc s) = .ok .cls → s.writeData c r = false) ∧
    (s.writeEnable c r = true → decodeWord (wordAtPc s) ≠ .ok .cls → s.writeData c r = !(s.fb.pixel c r))

/-! ## Control -/

/-- 42_control.md R190: with an empty stack too, where SP stays 0 and pc is loaded from S[0]. -/
def Obligations.RetPopsTheStack : Prop :=
  decodeWord 0x00EE = .ok .ret ∧
  ∀ s : State,
    (∀ h : 0 < s.sp.val, exec .ret s =
      .next { s with sp := ⟨s.sp.val - 1, by omega⟩, pc := s.stack[s.sp.val - 1]'(by omega) }) ∧
    (s.sp.val = 0 → exec .ret s = .next { s with pc := s.stack[0] })

/-- 42_control.md R191, R197: the target is absolute, and for Bnnn neither wrapped nor masked. -/
def Obligations.JumpsSetThePc : Prop :=
  ∀ (nnn : Addr12) (s : State),
    decodeWord (BitVec.ofNat 16 (0x1000 + nnn.toNat)) = .ok (.jp nnn) ∧
    decodeWord (BitVec.ofNat 16 (0xB000 + nnn.toNat)) = .ok (.jpV0 nnn) ∧
    (∃ t, exec (.jp nnn) s = .next t ∧ t = { s with pc := t.pc } ∧ t.pc.toNat = nnn.toNat) ∧
    (∃ t, exec (.jpV0 nnn) s = .next t ∧ t = { s with pc := t.pc } ∧ t.pc.toNat = (s.getV 0).toNat + nnn.toNat)

/-- 42_control.md R192. -/
def Obligations.CallPushesTheReturnAddress : Prop :=
  ∀ nnn : Addr12, decodeWord (BitVec.ofNat 16 (0x2000 + nnn.toNat)) = .ok (.call nnn) ∧
    ∀ s : State,
      (∀ h : s.sp.val < 16, exec (.call nnn) s = .next
        { s with stack := s.stack.set s.sp.val (s.pc + 2), sp := ⟨s.sp.val + 1, by omega⟩,
                 pc := BitVec.ofNat 16 nnn.toNat }) ∧
      (s.sp.val = 16 → exec (.call nnn) s = .next { s with rd := false, fault := some (.stackOverflow s.pc) })

/-- A call followed by a return resumes at exactly the call site + 2 with the depth as before, and only the slot and pc
differ (95_test_vectors.md L1.4). -/
def Obligations.CallThenRetResumesAfterTheCall : Prop :=
  ∀ (nnn : Addr12) (s t : State), s.sp.val < 16 → exec (.call nnn) s = .next t →
    ∃ u, exec .ret t = .next u ∧ u.pc = s.pc + 2 ∧ u.sp = s.sp ∧
      u = { s with stack := u.stack, pc := u.pc } ∧
      ∀ k : Fin 16, k.val ≠ s.sp.val → u.stack.get k = s.stack.get k

/-- 42_control.md R193 to R196. -/
def Obligations.SkipsAdvanceByFourOrTwo : Prop :=
  ∀ (x y : Reg) (kk : Byte) (s : State),
    (decodeWord (BitVec.ofNat 16 (0x3000 + 0x100 * x.val + kk.toNat)) = .ok (.seImm x kk) ∧
      decodeWord (BitVec.ofNat 16 (0x4000 + 0x100 * x.val + kk.toNat)) = .ok (.sneImm x kk) ∧
      decodeWord (BitVec.ofNat 16 (0x5000 + 0x100 * x.val + 0x10 * y.val)) = .ok (.seReg x y) ∧
      decodeWord (BitVec.ofNat 16 (0x9000 + 0x100 * x.val + 0x10 * y.val)) = .ok (.sneReg x y)) ∧
    exec (.seImm x kk) s = .next { s with pc := if s.getV x = kk then s.pc + 4 else s.pc + 2 } ∧
    exec (.sneImm x kk) s = .next { s with pc := if s.getV x = kk then s.pc + 2 else s.pc + 4 } ∧
    exec (.seReg x y) s = .next { s with pc := if s.getV x = s.getV y then s.pc + 4 else s.pc + 2 } ∧
    exec (.sneReg x y) s = .next { s with pc := if s.getV x = s.getV y then s.pc + 2 else s.pc + 4 }

/-! ## Arithmetic and logic -/

/-- 43_alu.md R220, R221, R222: the byte loaded, the byte sum modulo 256 with no flag, the register copied. -/
def Obligations.LoadsAndByteAddWriteVx : Prop :=
  ∀ (x y : Reg) (kk : Byte) (s : State),
    (decodeWord (BitVec.ofNat 16 (0x6000 + 0x100 * x.val + kk.toNat)) = .ok (.ldImm x kk) ∧
      decodeWord (BitVec.ofNat 16 (0x7000 + 0x100 * x.val + kk.toNat)) = .ok (.addImm x kk) ∧
      decodeWord (BitVec.ofNat 16 (0x8000 + 0x100 * x.val + 0x10 * y.val)) = .ok (.ldReg x y)) ∧
    (∃ t, exec (.ldImm x kk) s = .next t ∧ t = { s with v := t.v, pc := s.pc + 2 } ∧
      t.getV x = kk ∧ ∀ k, k ≠ x → t.getV k = s.getV k) ∧
    (∃ t, exec (.addImm x kk) s = .next t ∧ t = { s with v := t.v, pc := s.pc + 2 } ∧
      (t.getV x).toNat = ((s.getV x).toNat + kk.toNat) % 256 ∧ ∀ k, k ≠ x → t.getV k = s.getV k) ∧
    (∃ t, exec (.ldReg x y) s = .next t ∧ t = { s with v := t.v, pc := s.pc + 2 } ∧
      t.getV x = s.getV y ∧ ∀ k, k ≠ x → t.getV k = s.getV k)

/-- 43_alu.md R223, R224, R225: bit by bit, with VF unchanged unless it is the destination. -/
def Obligations.LogicWorksBitByBit : Prop :=
  ∀ (x y : Reg) (s : State),
    (decodeWord (BitVec.ofNat 16 (0x8001 + 0x100 * x.val + 0x10 * y.val)) = .ok (.or x y) ∧
      decodeWord (BitVec.ofNat 16 (0x8002 + 0x100 * x.val + 0x10 * y.val)) = .ok (.and x y) ∧
      decodeWord (BitVec.ofNat 16 (0x8003 + 0x100 * x.val + 0x10 * y.val)) = .ok (.xor x y)) ∧
    (∃ t, exec (.or x y) s = .next t ∧ t = { s with v := t.v, pc := s.pc + 2 } ∧
      (∀ j, j < 8 → (t.getV x).getLsbD j = ((s.getV x).getLsbD j || (s.getV y).getLsbD j)) ∧
      ∀ k, k ≠ x → t.getV k = s.getV k) ∧
    (∃ t, exec (.and x y) s = .next t ∧ t = { s with v := t.v, pc := s.pc + 2 } ∧
      (∀ j, j < 8 → (t.getV x).getLsbD j = ((s.getV x).getLsbD j && (s.getV y).getLsbD j)) ∧
      ∀ k, k ≠ x → t.getV k = s.getV k) ∧
    (∃ t, exec (.xor x y) s = .next t ∧ t = { s with v := t.v, pc := s.pc + 2 } ∧
      (∀ j, j < 8 → (t.getV x).getLsbD j = ((s.getV x).getLsbD j ^^ (s.getV y).getLsbD j)) ∧
      ∀ k, k ≠ x → t.getV k = s.getV k)

/-- 43_alu.md R226: VF is written last, so with x = F it holds the carry and the sum is lost. -/
def Obligations.AddRegSetsCarry : Prop :=
  ∀ (x y : Reg) (s : State),
    decodeWord (BitVec.ofNat 16 (0x8004 + 0x100 * x.val + 0x10 * y.val)) = .ok (.addReg x y) ∧
    ∃ t, exec (.addReg x y) s = .next t ∧ t = { s with v := t.v, pc := s.pc + 2 } ∧
      (x ≠ VF → (t.getV x).toNat = ((s.getV x).toNat + (s.getV y).toNat) % 256) ∧
      t.getV VF = (if (s.getV x).toNat + (s.getV y).toNat > 255 then 1 else 0) ∧
      ∀ k, k ≠ x → k ≠ VF → t.getV k = s.getV k

/-- 43_alu.md R227, R229: the difference modulo 256 and the no-borrow flag, which equal operands set. -/
def Obligations.SubtractionsSetNoBorrow : Prop :=
  ∀ (x y : Reg) (s : State),
    (decodeWord (BitVec.ofNat 16 (0x8005 + 0x100 * x.val + 0x10 * y.val)) = .ok (.sub x y) ∧
      decodeWord (BitVec.ofNat 16 (0x8007 + 0x100 * x.val + 0x10 * y.val)) = .ok (.subn x y)) ∧
    (∃ t, exec (.sub x y) s = .next t ∧ t = { s with v := t.v, pc := s.pc + 2 } ∧
      (x ≠ VF → (t.getV x).toNat = ((s.getV x).toNat + 256 - (s.getV y).toNat) % 256) ∧
      t.getV VF = (if (s.getV x).toNat ≥ (s.getV y).toNat then 1 else 0) ∧
      ∀ k, k ≠ x → k ≠ VF → t.getV k = s.getV k) ∧
    (∃ t, exec (.subn x y) s = .next t ∧ t = { s with v := t.v, pc := s.pc + 2 } ∧
      (x ≠ VF → (t.getV x).toNat = ((s.getV y).toNat + 256 - (s.getV x).toNat) % 256) ∧
      t.getV VF = (if (s.getV y).toNat ≥ (s.getV x).toNat then 1 else 0) ∧
      ∀ k, k ≠ x → k ≠ VF → t.getV k = s.getV k)

/-- 43_alu.md R228, R230: logical shifts by one, VF the bit shifted out as 0 or 1; y is decoded and ignored. -/
def Obligations.ShiftsSetTheBitShiftedOut : Prop :=
  ∀ (x y : Reg) (s : State),
    (decodeWord (BitVec.ofNat 16 (0x8006 + 0x100 * x.val + 0x10 * y.val)) = .ok (.shr x y) ∧
      decodeWord (BitVec.ofNat 16 (0x800E + 0x100 * x.val + 0x10 * y.val)) = .ok (.shl x y)) ∧
    (∃ t, exec (.shr x y) s = .next t ∧ t = { s with v := t.v, pc := s.pc + 2 } ∧
      (x ≠ VF → (t.getV x).toNat = (s.getV x).toNat / 2) ∧
      (t.getV VF).toNat = (s.getV x).toNat % 2 ∧
      ∀ k, k ≠ x → k ≠ VF → t.getV k = s.getV k) ∧
    (∃ t, exec (.shl x y) s = .next t ∧ t = { s with v := t.v, pc := s.pc + 2 } ∧
      (x ≠ VF → (t.getV x).toNat = ((s.getV x).toNat * 2) % 256) ∧
      (t.getV VF).toNat = (s.getV x).toNat / 128 ∧
      ∀ k, k ≠ x → k ≠ VF → t.getV k = s.getV k)

/-- 43_alu.md R231: one draw whatever kk is; whatever byte the environment supplies is the one drawn; and the results are
exactly the bytes v with `v & ~kk = 0`. The fields `entropy` and `draws`, and that the byte is the head of the one, are the
model's choice (log entry 1). -/
def Obligations.RndMasksOneDraw : Prop :=
  ∀ (x : Reg) (kk : Byte),
    decodeWord (BitVec.ofNat 16 (0xC000 + 0x100 * x.val + kk.toNat)) = .ok (.rnd x kk) ∧
    (∀ s : State, ∃ t, exec (.rnd x kk) s = .next t ∧
      t = { s with v := t.v, pc := s.pc + 2, entropy := s.entropy.tail, draws := s.draws + 1 } ∧
      t.getV x = s.entropyByte &&& kk ∧ t.getV x &&& ~~~kk = 0 ∧ ∀ k, k ≠ x → t.getV k = s.getV k) ∧
    (∀ (s : State) (e : Byte) (more : List Byte), s.entropy = e :: more → s.entropyByte = e) ∧
    (∀ (s : State) (v : Byte), v &&& ~~~kk = 0 → ∃ e t, exec (.rnd x kk) { s with entropy := [e] } = .next t ∧
      t.getV x = v)

/-! ## Index and memory -/

/-- 44_index_memory.md R260, R262. -/
def Obligations.IndexLoads : Prop :=
  ∀ (nnn : Addr12) (x : Reg) (s : State),
    decodeWord (BitVec.ofNat 16 (0xA000 + nnn.toNat)) = .ok (.ldI nnn) ∧
    decodeWord (BitVec.ofNat 16 (0xF029 + 0x100 * x.val)) = .ok (.ldFVx x) ∧
    (∃ t, exec (.ldI nnn) s = .next t ∧ t = { s with i := t.i, pc := s.pc + 2 } ∧ t.i.toNat = nnn.toNat) ∧
    (∃ t, exec (.ldFVx x) s = .next t ∧ t = { s with i := t.i, pc := s.pc + 2 } ∧
      t.i.toNat = 5 * ((s.getV x).toNat % 16))

/-- 44_index_memory.md R261: VF is not written; a sum above 0xFFFF raises IndexOverflow. -/
def Obligations.IndexAddOrOverflow : Prop :=
  ∀ x : Reg, decodeWord (BitVec.ofNat 16 (0xF01E + 0x100 * x.val)) = .ok (.addIVx x) ∧
    ∀ s : State,
      (s.i.toNat + (s.getV x).toNat ≤ 0xFFFF → ∃ t, exec (.addIVx x) s = .next t ∧
        t = { s with i := t.i, pc := s.pc + 2 } ∧ t.i.toNat = s.i.toNat + (s.getV x).toNat) ∧
      (0xFFFF < s.i.toNat + (s.getV x).toNat → exec (.addIVx x) s = .next
        { s with rd := false,
                 fault := some (.indexOverflow (BitVec.ofNat 17 (s.i.toNat + (s.getV x).toNat)) s.pc) })

/-- 44_index_memory.md R263: the three digits at I, I + 1, I + 2 and no other byte; above 0xFFF no byte at all. -/
def Obligations.DecimalDigitsAreStored : Prop :=
  ∀ x : Reg, decodeWord (BitVec.ofNat 16 (0xF033 + 0x100 * x.val)) = .ok (.ldBVx x) ∧
    ∀ s : State,
      (s.i.toNat + 2 ≤ 0xFFF → ∃ t, exec (.ldBVx x) s = .next t ∧ t = { s with mem := t.mem, pc := s.pc + 2 } ∧
        (t.readByte s.i.toNat).toNat = (s.getV x).toNat / 100 ∧
        (t.readByte (s.i.toNat + 1)).toNat = ((s.getV x).toNat / 10) % 10 ∧
        (t.readByte (s.i.toNat + 2)).toNat = (s.getV x).toNat % 10 ∧
        ∀ a, a < s.i.toNat ∨ s.i.toNat + 2 < a → t.readByte a = s.readByte a) ∧
      (0xFFF < s.i.toNat + 2 → exec (.ldBVx x) s = .next
        { s with rd := false, fault := some (.addressOutOfRange (BitVec.ofNat 16 (max s.i.toNat 0x1000)) s.pc) })

/-- 44_index_memory.md R264: V0..Vx inclusive from I up and no other byte; I is not changed. -/
def Obligations.RegistersAreStored : Prop :=
  ∀ x : Reg, decodeWord (BitVec.ofNat 16 (0xF055 + 0x100 * x.val)) = .ok (.ldMemVx x) ∧
    ∀ s : State,
      (s.i.toNat + x.val ≤ 0xFFF → ∃ t, exec (.ldMemVx x) s = .next t ∧
        t = { s with mem := t.mem, pc := s.pc + 2 } ∧
        (∀ k : Reg, k ≤ x → t.readByte (s.i.toNat + k.val) = s.getV k) ∧
        ∀ a, a < s.i.toNat ∨ s.i.toNat + x.val < a → t.readByte a = s.readByte a) ∧
      (0xFFF < s.i.toNat + x.val → exec (.ldMemVx x) s = .next
        { s with rd := false, fault := some (.addressOutOfRange (BitVec.ofNat 16 (max s.i.toNat 0x1000)) s.pc) })

/-- 44_index_memory.md R265: V0..Vx inclusive from I up and no other register; I is not changed. -/
def Obligations.RegistersAreLoaded : Prop :=
  ∀ x : Reg, decodeWord (BitVec.ofNat 16 (0xF065 + 0x100 * x.val)) = .ok (.ldVxMem x) ∧
    ∀ s : State,
      (s.i.toNat + x.val ≤ 0xFFF → ∃ t, exec (.ldVxMem x) s = .next t ∧ t = { s with v := t.v, pc := s.pc + 2 } ∧
        (∀ k : Reg, k ≤ x → t.getV k = s.readByte (s.i.toNat + k.val)) ∧
        ∀ k : Reg, x < k → t.getV k = s.getV k) ∧
      (0xFFF < s.i.toNat + x.val → exec (.ldVxMem x) s = .next
        { s with rd := false, fault := some (.addressOutOfRange (BitVec.ofNat 16 (max s.i.toNat 0x1000)) s.pc) })

/-- Storing V0..Vx and loading them back with the same x and I restores V0..Vx exactly, whatever the registers held in
between (95_test_vectors.md L1.7). -/
def Obligations.StoreThenLoadRestoresTheRegisters : Prop :=
  ∀ (x : Reg) (s t : State) (v : Vector Byte 16), s.i.toNat + x.val ≤ 0xFFF → exec (.ldMemVx x) s = .next t →
    ∃ u, exec (.ldVxMem x) { t with v := v } = .next u ∧ u.i = s.i ∧ (∀ k, k ≤ x → u.getV k = s.getV k) ∧
      ∀ k : Reg, x < k → u.getV k = v.get k

/-- A word stored over the next instruction by Fx55 is the word the next cycle fetches (20_memory.md R82,
70_reset_and_hazards.md R398). -/
def Obligations.StoredWordIsFetchedNext : Prop :=
  ∀ (x : Reg) (s t : State), 1 ≤ x.val → s.i = s.pc + 2 → s.pc.toNat + 2 + x.val ≤ 0xFFF →
    exec (.ldMemVx x) s = .next t →
    (wordAtPc t).toNat = 256 * (s.getV 0).toNat + (s.getV 1).toNat

/-- Two memories in the model's canonical form that read alike are the same list (log entry 9). -/
def Obligations.CanonicalMemoryIsDeterminedByItsBytes : Prop :=
  ∀ (font : Vector Byte 80) (m m' : Memory), Memory.wf font m = true → Memory.wf font m' = true →
    (∀ a, Memory.read font m a = Memory.read font m' a) → m = m'

/-! ## Keys and timers -/

/-- 45_keys.md R290, R291. -/
def Obligations.KeySkipsTestTheNamedKey : Prop :=
  ∀ x : Reg,
    (decodeWord (BitVec.ofNat 16 (0xE09E + 0x100 * x.val)) = .ok (.skp x) ∧
      decodeWord (BitVec.ofNat 16 (0xE0A1 + 0x100 * x.val)) = .ok (.sknp x)) ∧
    ∀ s : State,
      (∀ k : Fin 16, (s.getV x).toNat = k.val →
        exec (.skp x) s = .next { s with pc := if s.key k then s.pc + 4 else s.pc + 2 } ∧
        exec (.sknp x) s = .next { s with pc := if s.key k then s.pc + 2 else s.pc + 4 }) ∧
      (15 < (s.getV x).toNat →
        exec (.skp x) s = .next { s with rd := false, fault := some (.keyIndexOutOfRange (s.getV x) s.pc) } ∧
        exec (.sknp x) s = .next { s with rd := false, fault := some (.keyIndexOutOfRange (s.getV x) s.pc) })

/-- 45_keys.md R292: the least pressed key, else no change; a waiting cycle still clears RD and steps the timers, and
fetches the same word again. -/
def Obligations.WaitForKeyTakesTheLeastKey : Prop :=
  ∀ x : Reg, decodeWord (BitVec.ofNat 16 (0xF00A + 0x100 * x.val)) = .ok (.ldVxK x) ∧
    (∀ (s : State) (k : Fin 16), s.key k = true → (∀ j, j < k → s.key j = false) →
      ∃ t, exec (.ldVxK x) s = .next t ∧ t = { s with v := t.v, pc := s.pc + 2 } ∧
        (t.getV x).toNat = k.val ∧ ∀ j, j ≠ x → t.getV j = s.getV j) ∧
    (∀ s : State, (∀ k, s.key k = false) → exec (.ldVxK x) s = .next s) ∧
    (∀ s : State, (∀ k, s.key k = false) → s.fault = none → s.pc.toNat ≤ 0xFFE →
      decodeWord (wordAtPc s) = .ok (.ldVxK x) →
      ∃ t, step s = .next t ∧ wordAtPc t = wordAtPc s ∧
        t = { s with rd := false, last := wordAtPc s, dt := countedDown s.dt, st := countedDown s.st })

/-- 46_timers.md R310, R311, R312: what the instruction does, DT and ST after the timer step of the same cycle, and, when
no later cycle writes the timer again, what is left of it after n more cycles. -/
def Obligations.TimerInstructionsMoveTheTimers : Prop :=
  ∀ x : Reg,
    (decodeWord (BitVec.ofNat 16 (0xF007 + 0x100 * x.val)) = .ok (.ldVxDt x) ∧
      decodeWord (BitVec.ofNat 16 (0xF015 + 0x100 * x.val)) = .ok (.ldDtVx x) ∧
      decodeWord (BitVec.ofNat 16 (0xF018 + 0x100 * x.val)) = .ok (.ldStVx x)) ∧
    (∀ s : State,
      (∃ t, exec (.ldVxDt x) s = .next t ∧ t = { s with v := t.v, pc := s.pc + 2 } ∧ t.getV x = s.dt ∧
        ∀ k, k ≠ x → t.getV k = s.getV k) ∧
      exec (.ldDtVx x) s = .next { s with dt := s.getV x, pc := s.pc + 2 } ∧
      exec (.ldStVx x) s = .next { s with st := s.getV x, pc := s.pc + 2 }) ∧
    (∀ s : State, s.fault = none → s.pc.toNat ≤ 0xFFE →
      (decodeWord (wordAtPc s) = .ok (.ldVxDt x) → ∃ t, step s = .next t ∧ t.getV x = s.dt ∧
        t.dt.toNat = s.dt.toNat - 1) ∧
      (decodeWord (wordAtPc s) = .ok (.ldDtVx x) → ∃ t, step s = .next t ∧ t.dt.toNat = (s.getV x).toNat - 1 ∧
        ∀ n u, completedCycles (fun i => ∀ k, i ≠ .ldDtVx k) n t u → u.dt.toNat = (s.getV x).toNat - 1 - n) ∧
      (decodeWord (wordAtPc s) = .ok (.ldStVx x) → ∃ t, step s = .next t ∧ t.st.toNat = (s.getV x).toNat - 1 ∧
        ∀ n u, completedCycles (fun i => ∀ k, i ≠ .ldStVx k) n t u →
          (u.toneActive = true ↔ n + 2 ≤ (s.getV x).toNat)))

/-! ## Invariants -/

/-- A constructed block meets the invariant, whatever its FONT, and so does the reset state (70_reset_and_hazards.md R390).
The canonical form of memory, in which it lists only addresses of 20_memory.md R70, is the model's choice (log entry 9). -/
def Obligations.ResetMeetsTheInvariant : Prop :=
  (∀ font, Inv (State.newWith font)) ∧ Inv State.reset

/-- From every state that meets the invariant, a step gives one that meets it: memory in canonical form and inside
0x000..0xFFF, pc at most 0x10FE, slots at most 0x1000, a latched fault precise (10_state.md R36, 60_exceptions.md
R333). The canonical form of memory, in which it lists only addresses of 20_memory.md R70, is the model's choice (log
entry 9). -/
def Obligations.StepKeepsTheInvariant : Prop :=
  ∀ s t : State, Inv s → step s = .next t → Inv t

/-- A constructed block meets the invariant, and every admitted move of the host keeps it: a reset, a load, a key write and
a cycle with any entropy (10_state.md R36, 60_exceptions.md R371). Which moves are admitted follows log entries 8 and
17, and the canonical form of memory log entry 9. -/
def Obligations.HostMovesKeepTheInvariant : Prop :=
  (∀ font, Inv (Bench.init font).block) ∧
  ∀ (b b' : Bench) (a : HostAction), Inv b.block → b.act a = some b' → Inv b'.block

/-- Every state that a run of admitted host actions reaches, from a block with any FONT and whatever bytes are drawn, meets
the invariant, so its pc is at most 0x10FE (10_state.md R36). Which actions are admitted follows log entries 8 and 17, and
the canonical form of memory log entry 9. -/
def Obligations.EveryReachableStateMeetsTheInvariant : Prop :=
  ∀ s : State, Reachable s → Inv s

/-- A word placed for the next fetch is the one the next step executes, when the pc can be fetched from
(log entry 7). -/
def Obligations.PlacedWordIsExecutedNext : Prop :=
  ∀ (s : State) (w : Nat) (i : Instr), s.pc.toNat ≤ 0xFFE → decodeTableWord 16 w = some i →
    (s.withFetchWord 16 w).currentInstr = some i ∧
    (∀ a, a ≠ s.pc.toNat → a ≠ s.pc.toNat + 1 → (s.withFetchWord 16 w).readByte a = s.readByte a) ∧
    s.withFetchWord 16 w = { s with mem := (s.withFetchWord 16 w).mem, fault := none }
end

