-- ==== Sys2Proof/Laws/State.lean ====
section
/-! SUPPORT. One lemma per field per update of State, so that no later proof unfolds a record update; and what a register
read gives after a register write. -/

namespace Sys2Proof.Machine

/-! `State.setV` writes v. -/

@[simp] theorem State.setV_v (s : State) (x : Reg) (b : Byte) : (s.setV x b).v = s.v.set x b := rfl
@[simp] theorem State.setV_i (s : State) (x : Reg) (b : Byte) : (s.setV x b).i = s.i := rfl
@[simp] theorem State.setV_pc (s : State) (x : Reg) (b : Byte) : (s.setV x b).pc = s.pc := rfl
@[simp] theorem State.setV_stack (s : State) (x : Reg) (b : Byte) : (s.setV x b).stack = s.stack := rfl
@[simp] theorem State.setV_sp (s : State) (x : Reg) (b : Byte) : (s.setV x b).sp = s.sp := rfl
@[simp] theorem State.setV_dt (s : State) (x : Reg) (b : Byte) : (s.setV x b).dt = s.dt := rfl
@[simp] theorem State.setV_st (s : State) (x : Reg) (b : Byte) : (s.setV x b).st = s.st := rfl
@[simp] theorem State.setV_keys (s : State) (x : Reg) (b : Byte) : (s.setV x b).keys = s.keys := rfl
@[simp] theorem State.setV_fb (s : State) (x : Reg) (b : Byte) : (s.setV x b).fb = s.fb := rfl
@[simp] theorem State.setV_rd (s : State) (x : Reg) (b : Byte) : (s.setV x b).rd = s.rd := rfl
@[simp] theorem State.setV_last (s : State) (x : Reg) (b : Byte) : (s.setV x b).last = s.last := rfl
@[simp] theorem State.setV_fault (s : State) (x : Reg) (b : Byte) : (s.setV x b).fault = s.fault := rfl
@[simp] theorem State.setV_mem (s : State) (x : Reg) (b : Byte) : (s.setV x b).mem = s.mem := rfl
@[simp] theorem State.setV_font (s : State) (x : Reg) (b : Byte) : (s.setV x b).font = s.font := rfl
@[simp] theorem State.setV_entropy (s : State) (x : Reg) (b : Byte) : (s.setV x b).entropy = s.entropy := rfl
@[simp] theorem State.setV_draws (s : State) (x : Reg) (b : Byte) : (s.setV x b).draws = s.draws := rfl

/-! `State.setVFlag` writes v. -/

@[simp] theorem State.setVFlag_v (s : State) (x : Reg) (b : Byte) (f : Bool) : (s.setVFlag x b f).v = (s.v.set x b).set VF (flagByte f) := rfl
@[simp] theorem State.setVFlag_i (s : State) (x : Reg) (b : Byte) (f : Bool) : (s.setVFlag x b f).i = s.i := rfl
@[simp] theorem State.setVFlag_pc (s : State) (x : Reg) (b : Byte) (f : Bool) : (s.setVFlag x b f).pc = s.pc := rfl
@[simp] theorem State.setVFlag_stack (s : State) (x : Reg) (b : Byte) (f : Bool) : (s.setVFlag x b f).stack = s.stack := rfl
@[simp] theorem State.setVFlag_sp (s : State) (x : Reg) (b : Byte) (f : Bool) : (s.setVFlag x b f).sp = s.sp := rfl
@[simp] theorem State.setVFlag_dt (s : State) (x : Reg) (b : Byte) (f : Bool) : (s.setVFlag x b f).dt = s.dt := rfl
@[simp] theorem State.setVFlag_st (s : State) (x : Reg) (b : Byte) (f : Bool) : (s.setVFlag x b f).st = s.st := rfl
@[simp] theorem State.setVFlag_keys (s : State) (x : Reg) (b : Byte) (f : Bool) : (s.setVFlag x b f).keys = s.keys := rfl
@[simp] theorem State.setVFlag_fb (s : State) (x : Reg) (b : Byte) (f : Bool) : (s.setVFlag x b f).fb = s.fb := rfl
@[simp] theorem State.setVFlag_rd (s : State) (x : Reg) (b : Byte) (f : Bool) : (s.setVFlag x b f).rd = s.rd := rfl
@[simp] theorem State.setVFlag_last (s : State) (x : Reg) (b : Byte) (f : Bool) : (s.setVFlag x b f).last = s.last := rfl
@[simp] theorem State.setVFlag_fault (s : State) (x : Reg) (b : Byte) (f : Bool) : (s.setVFlag x b f).fault = s.fault := rfl
@[simp] theorem State.setVFlag_mem (s : State) (x : Reg) (b : Byte) (f : Bool) : (s.setVFlag x b f).mem = s.mem := rfl
@[simp] theorem State.setVFlag_font (s : State) (x : Reg) (b : Byte) (f : Bool) : (s.setVFlag x b f).font = s.font := rfl
@[simp] theorem State.setVFlag_entropy (s : State) (x : Reg) (b : Byte) (f : Bool) : (s.setVFlag x b f).entropy = s.entropy := rfl
@[simp] theorem State.setVFlag_draws (s : State) (x : Reg) (b : Byte) (f : Bool) : (s.setVFlag x b f).draws = s.draws := rfl

/-! `State.setI` writes i. -/

@[simp] theorem State.setI_v (s : State) (w : Word) : (s.setI w).v = s.v := rfl
@[simp] theorem State.setI_i (s : State) (w : Word) : (s.setI w).i = w := rfl
@[simp] theorem State.setI_pc (s : State) (w : Word) : (s.setI w).pc = s.pc := rfl
@[simp] theorem State.setI_stack (s : State) (w : Word) : (s.setI w).stack = s.stack := rfl
@[simp] theorem State.setI_sp (s : State) (w : Word) : (s.setI w).sp = s.sp := rfl
@[simp] theorem State.setI_dt (s : State) (w : Word) : (s.setI w).dt = s.dt := rfl
@[simp] theorem State.setI_st (s : State) (w : Word) : (s.setI w).st = s.st := rfl
@[simp] theorem State.setI_keys (s : State) (w : Word) : (s.setI w).keys = s.keys := rfl
@[simp] theorem State.setI_fb (s : State) (w : Word) : (s.setI w).fb = s.fb := rfl
@[simp] theorem State.setI_rd (s : State) (w : Word) : (s.setI w).rd = s.rd := rfl
@[simp] theorem State.setI_last (s : State) (w : Word) : (s.setI w).last = s.last := rfl
@[simp] theorem State.setI_fault (s : State) (w : Word) : (s.setI w).fault = s.fault := rfl
@[simp] theorem State.setI_mem (s : State) (w : Word) : (s.setI w).mem = s.mem := rfl
@[simp] theorem State.setI_font (s : State) (w : Word) : (s.setI w).font = s.font := rfl
@[simp] theorem State.setI_entropy (s : State) (w : Word) : (s.setI w).entropy = s.entropy := rfl
@[simp] theorem State.setI_draws (s : State) (w : Word) : (s.setI w).draws = s.draws := rfl

/-! `State.setDt` writes dt. -/

@[simp] theorem State.setDt_v (s : State) (b : Byte) : (s.setDt b).v = s.v := rfl
@[simp] theorem State.setDt_i (s : State) (b : Byte) : (s.setDt b).i = s.i := rfl
@[simp] theorem State.setDt_pc (s : State) (b : Byte) : (s.setDt b).pc = s.pc := rfl
@[simp] theorem State.setDt_stack (s : State) (b : Byte) : (s.setDt b).stack = s.stack := rfl
@[simp] theorem State.setDt_sp (s : State) (b : Byte) : (s.setDt b).sp = s.sp := rfl
@[simp] theorem State.setDt_dt (s : State) (b : Byte) : (s.setDt b).dt = b := rfl
@[simp] theorem State.setDt_st (s : State) (b : Byte) : (s.setDt b).st = s.st := rfl
@[simp] theorem State.setDt_keys (s : State) (b : Byte) : (s.setDt b).keys = s.keys := rfl
@[simp] theorem State.setDt_fb (s : State) (b : Byte) : (s.setDt b).fb = s.fb := rfl
@[simp] theorem State.setDt_rd (s : State) (b : Byte) : (s.setDt b).rd = s.rd := rfl
@[simp] theorem State.setDt_last (s : State) (b : Byte) : (s.setDt b).last = s.last := rfl
@[simp] theorem State.setDt_fault (s : State) (b : Byte) : (s.setDt b).fault = s.fault := rfl
@[simp] theorem State.setDt_mem (s : State) (b : Byte) : (s.setDt b).mem = s.mem := rfl
@[simp] theorem State.setDt_font (s : State) (b : Byte) : (s.setDt b).font = s.font := rfl
@[simp] theorem State.setDt_entropy (s : State) (b : Byte) : (s.setDt b).entropy = s.entropy := rfl
@[simp] theorem State.setDt_draws (s : State) (b : Byte) : (s.setDt b).draws = s.draws := rfl

/-! `State.setSt` writes st. -/

@[simp] theorem State.setSt_v (s : State) (b : Byte) : (s.setSt b).v = s.v := rfl
@[simp] theorem State.setSt_i (s : State) (b : Byte) : (s.setSt b).i = s.i := rfl
@[simp] theorem State.setSt_pc (s : State) (b : Byte) : (s.setSt b).pc = s.pc := rfl
@[simp] theorem State.setSt_stack (s : State) (b : Byte) : (s.setSt b).stack = s.stack := rfl
@[simp] theorem State.setSt_sp (s : State) (b : Byte) : (s.setSt b).sp = s.sp := rfl
@[simp] theorem State.setSt_dt (s : State) (b : Byte) : (s.setSt b).dt = s.dt := rfl
@[simp] theorem State.setSt_st (s : State) (b : Byte) : (s.setSt b).st = b := rfl
@[simp] theorem State.setSt_keys (s : State) (b : Byte) : (s.setSt b).keys = s.keys := rfl
@[simp] theorem State.setSt_fb (s : State) (b : Byte) : (s.setSt b).fb = s.fb := rfl
@[simp] theorem State.setSt_rd (s : State) (b : Byte) : (s.setSt b).rd = s.rd := rfl
@[simp] theorem State.setSt_last (s : State) (b : Byte) : (s.setSt b).last = s.last := rfl
@[simp] theorem State.setSt_fault (s : State) (b : Byte) : (s.setSt b).fault = s.fault := rfl
@[simp] theorem State.setSt_mem (s : State) (b : Byte) : (s.setSt b).mem = s.mem := rfl
@[simp] theorem State.setSt_font (s : State) (b : Byte) : (s.setSt b).font = s.font := rfl
@[simp] theorem State.setSt_entropy (s : State) (b : Byte) : (s.setSt b).entropy = s.entropy := rfl
@[simp] theorem State.setSt_draws (s : State) (b : Byte) : (s.setSt b).draws = s.draws := rfl

/-! `State.jump` writes pc. -/

@[simp] theorem State.jump_v (s : State) (w : Word) : (s.jump w).v = s.v := rfl
@[simp] theorem State.jump_i (s : State) (w : Word) : (s.jump w).i = s.i := rfl
@[simp] theorem State.jump_pc (s : State) (w : Word) : (s.jump w).pc = w := rfl
@[simp] theorem State.jump_stack (s : State) (w : Word) : (s.jump w).stack = s.stack := rfl
@[simp] theorem State.jump_sp (s : State) (w : Word) : (s.jump w).sp = s.sp := rfl
@[simp] theorem State.jump_dt (s : State) (w : Word) : (s.jump w).dt = s.dt := rfl
@[simp] theorem State.jump_st (s : State) (w : Word) : (s.jump w).st = s.st := rfl
@[simp] theorem State.jump_keys (s : State) (w : Word) : (s.jump w).keys = s.keys := rfl
@[simp] theorem State.jump_fb (s : State) (w : Word) : (s.jump w).fb = s.fb := rfl
@[simp] theorem State.jump_rd (s : State) (w : Word) : (s.jump w).rd = s.rd := rfl
@[simp] theorem State.jump_last (s : State) (w : Word) : (s.jump w).last = s.last := rfl
@[simp] theorem State.jump_fault (s : State) (w : Word) : (s.jump w).fault = s.fault := rfl
@[simp] theorem State.jump_mem (s : State) (w : Word) : (s.jump w).mem = s.mem := rfl
@[simp] theorem State.jump_font (s : State) (w : Word) : (s.jump w).font = s.font := rfl
@[simp] theorem State.jump_entropy (s : State) (w : Word) : (s.jump w).entropy = s.entropy := rfl
@[simp] theorem State.jump_draws (s : State) (w : Word) : (s.jump w).draws = s.draws := rfl

/-! `State.advance` writes pc. -/

@[simp] theorem State.advance_v (s : State) : s.advance.v = s.v := rfl
@[simp] theorem State.advance_i (s : State) : s.advance.i = s.i := rfl
@[simp] theorem State.advance_pc (s : State) : s.advance.pc = s.pc + 2 := rfl
@[simp] theorem State.advance_stack (s : State) : s.advance.stack = s.stack := rfl
@[simp] theorem State.advance_sp (s : State) : s.advance.sp = s.sp := rfl
@[simp] theorem State.advance_dt (s : State) : s.advance.dt = s.dt := rfl
@[simp] theorem State.advance_st (s : State) : s.advance.st = s.st := rfl
@[simp] theorem State.advance_keys (s : State) : s.advance.keys = s.keys := rfl
@[simp] theorem State.advance_fb (s : State) : s.advance.fb = s.fb := rfl
@[simp] theorem State.advance_rd (s : State) : s.advance.rd = s.rd := rfl
@[simp] theorem State.advance_last (s : State) : s.advance.last = s.last := rfl
@[simp] theorem State.advance_fault (s : State) : s.advance.fault = s.fault := rfl
@[simp] theorem State.advance_mem (s : State) : s.advance.mem = s.mem := rfl
@[simp] theorem State.advance_font (s : State) : s.advance.font = s.font := rfl
@[simp] theorem State.advance_entropy (s : State) : s.advance.entropy = s.entropy := rfl
@[simp] theorem State.advance_draws (s : State) : s.advance.draws = s.draws := rfl

/-! `State.skip` writes pc. -/

@[simp] theorem State.skip_v (s : State) (c : Bool) : (s.skip c).v = s.v := rfl
@[simp] theorem State.skip_i (s : State) (c : Bool) : (s.skip c).i = s.i := rfl
@[simp] theorem State.skip_pc (s : State) (c : Bool) : (s.skip c).pc = s.pc + if c then 4 else 2 := rfl
@[simp] theorem State.skip_stack (s : State) (c : Bool) : (s.skip c).stack = s.stack := rfl
@[simp] theorem State.skip_sp (s : State) (c : Bool) : (s.skip c).sp = s.sp := rfl
@[simp] theorem State.skip_dt (s : State) (c : Bool) : (s.skip c).dt = s.dt := rfl
@[simp] theorem State.skip_st (s : State) (c : Bool) : (s.skip c).st = s.st := rfl
@[simp] theorem State.skip_keys (s : State) (c : Bool) : (s.skip c).keys = s.keys := rfl
@[simp] theorem State.skip_fb (s : State) (c : Bool) : (s.skip c).fb = s.fb := rfl
@[simp] theorem State.skip_rd (s : State) (c : Bool) : (s.skip c).rd = s.rd := rfl
@[simp] theorem State.skip_last (s : State) (c : Bool) : (s.skip c).last = s.last := rfl
@[simp] theorem State.skip_fault (s : State) (c : Bool) : (s.skip c).fault = s.fault := rfl
@[simp] theorem State.skip_mem (s : State) (c : Bool) : (s.skip c).mem = s.mem := rfl
@[simp] theorem State.skip_font (s : State) (c : Bool) : (s.skip c).font = s.font := rfl
@[simp] theorem State.skip_entropy (s : State) (c : Bool) : (s.skip c).entropy = s.entropy := rfl
@[simp] theorem State.skip_draws (s : State) (c : Bool) : (s.skip c).draws = s.draws := rfl

/-! `State.popPc` writes sp, pc. -/

@[simp] theorem State.popPc_v (s : State) : s.popPc.v = s.v := rfl
@[simp] theorem State.popPc_i (s : State) : s.popPc.i = s.i := rfl
@[simp] theorem State.popPc_pc (s : State) : s.popPc.pc = s.stack.get s.popSlot := rfl
@[simp] theorem State.popPc_stack (s : State) : s.popPc.stack = s.stack := rfl
@[simp] theorem State.popPc_sp (s : State) : s.popPc.sp = s.popSlot.castSucc := rfl
@[simp] theorem State.popPc_dt (s : State) : s.popPc.dt = s.dt := rfl
@[simp] theorem State.popPc_st (s : State) : s.popPc.st = s.st := rfl
@[simp] theorem State.popPc_keys (s : State) : s.popPc.keys = s.keys := rfl
@[simp] theorem State.popPc_fb (s : State) : s.popPc.fb = s.fb := rfl
@[simp] theorem State.popPc_rd (s : State) : s.popPc.rd = s.rd := rfl
@[simp] theorem State.popPc_last (s : State) : s.popPc.last = s.last := rfl
@[simp] theorem State.popPc_fault (s : State) : s.popPc.fault = s.fault := rfl
@[simp] theorem State.popPc_mem (s : State) : s.popPc.mem = s.mem := rfl
@[simp] theorem State.popPc_font (s : State) : s.popPc.font = s.font := rfl
@[simp] theorem State.popPc_entropy (s : State) : s.popPc.entropy = s.entropy := rfl
@[simp] theorem State.popPc_draws (s : State) : s.popPc.draws = s.draws := rfl

/-! `State.storeBytes` writes mem. -/

@[simp] theorem State.storeBytes_v (s : State) (a : Nat) (l : List Byte) : (s.storeBytes a l).v = s.v := rfl
@[simp] theorem State.storeBytes_i (s : State) (a : Nat) (l : List Byte) : (s.storeBytes a l).i = s.i := rfl
@[simp] theorem State.storeBytes_pc (s : State) (a : Nat) (l : List Byte) : (s.storeBytes a l).pc = s.pc := rfl
@[simp] theorem State.storeBytes_stack (s : State) (a : Nat) (l : List Byte) : (s.storeBytes a l).stack = s.stack := rfl
@[simp] theorem State.storeBytes_sp (s : State) (a : Nat) (l : List Byte) : (s.storeBytes a l).sp = s.sp := rfl
@[simp] theorem State.storeBytes_dt (s : State) (a : Nat) (l : List Byte) : (s.storeBytes a l).dt = s.dt := rfl
@[simp] theorem State.storeBytes_st (s : State) (a : Nat) (l : List Byte) : (s.storeBytes a l).st = s.st := rfl
@[simp] theorem State.storeBytes_keys (s : State) (a : Nat) (l : List Byte) : (s.storeBytes a l).keys = s.keys := rfl
@[simp] theorem State.storeBytes_fb (s : State) (a : Nat) (l : List Byte) : (s.storeBytes a l).fb = s.fb := rfl
@[simp] theorem State.storeBytes_rd (s : State) (a : Nat) (l : List Byte) : (s.storeBytes a l).rd = s.rd := rfl
@[simp] theorem State.storeBytes_last (s : State) (a : Nat) (l : List Byte) : (s.storeBytes a l).last = s.last := rfl
@[simp] theorem State.storeBytes_fault (s : State) (a : Nat) (l : List Byte) : (s.storeBytes a l).fault = s.fault := rfl
@[simp] theorem State.storeBytes_mem (s : State) (a : Nat) (l : List Byte) : (s.storeBytes a l).mem = Memory.writeBytes s.font s.mem a l := rfl
@[simp] theorem State.storeBytes_font (s : State) (a : Nat) (l : List Byte) : (s.storeBytes a l).font = s.font := rfl
@[simp] theorem State.storeBytes_entropy (s : State) (a : Nat) (l : List Byte) : (s.storeBytes a l).entropy = s.entropy := rfl
@[simp] theorem State.storeBytes_draws (s : State) (a : Nat) (l : List Byte) : (s.storeBytes a l).draws = s.draws := rfl

/-! `State.present` writes fb, rd. -/

@[simp] theorem State.present_v (s : State) (g : Framebuffer) : (s.present g).v = s.v := rfl
@[simp] theorem State.present_i (s : State) (g : Framebuffer) : (s.present g).i = s.i := rfl
@[simp] theorem State.present_pc (s : State) (g : Framebuffer) : (s.present g).pc = s.pc := rfl
@[simp] theorem State.present_stack (s : State) (g : Framebuffer) : (s.present g).stack = s.stack := rfl
@[simp] theorem State.present_sp (s : State) (g : Framebuffer) : (s.present g).sp = s.sp := rfl
@[simp] theorem State.present_dt (s : State) (g : Framebuffer) : (s.present g).dt = s.dt := rfl
@[simp] theorem State.present_st (s : State) (g : Framebuffer) : (s.present g).st = s.st := rfl
@[simp] theorem State.present_keys (s : State) (g : Framebuffer) : (s.present g).keys = s.keys := rfl
@[simp] theorem State.present_fb (s : State) (g : Framebuffer) : (s.present g).fb = g := rfl
@[simp] theorem State.present_rd (s : State) (g : Framebuffer) : (s.present g).rd = true := rfl
@[simp] theorem State.present_last (s : State) (g : Framebuffer) : (s.present g).last = s.last := rfl
@[simp] theorem State.present_fault (s : State) (g : Framebuffer) : (s.present g).fault = s.fault := rfl
@[simp] theorem State.present_mem (s : State) (g : Framebuffer) : (s.present g).mem = s.mem := rfl
@[simp] theorem State.present_font (s : State) (g : Framebuffer) : (s.present g).font = s.font := rfl
@[simp] theorem State.present_entropy (s : State) (g : Framebuffer) : (s.present g).entropy = s.entropy := rfl
@[simp] theorem State.present_draws (s : State) (g : Framebuffer) : (s.present g).draws = s.draws := rfl

/-! `State.clearRedraw` writes rd. -/

@[simp] theorem State.clearRedraw_v (s : State) : s.clearRedraw.v = s.v := rfl
@[simp] theorem State.clearRedraw_i (s : State) : s.clearRedraw.i = s.i := rfl
@[simp] theorem State.clearRedraw_pc (s : State) : s.clearRedraw.pc = s.pc := rfl
@[simp] theorem State.clearRedraw_stack (s : State) : s.clearRedraw.stack = s.stack := rfl
@[simp] theorem State.clearRedraw_sp (s : State) : s.clearRedraw.sp = s.sp := rfl
@[simp] theorem State.clearRedraw_dt (s : State) : s.clearRedraw.dt = s.dt := rfl
@[simp] theorem State.clearRedraw_st (s : State) : s.clearRedraw.st = s.st := rfl
@[simp] theorem State.clearRedraw_keys (s : State) : s.clearRedraw.keys = s.keys := rfl
@[simp] theorem State.clearRedraw_fb (s : State) : s.clearRedraw.fb = s.fb := rfl
@[simp] theorem State.clearRedraw_rd (s : State) : s.clearRedraw.rd = false := rfl
@[simp] theorem State.clearRedraw_last (s : State) : s.clearRedraw.last = s.last := rfl
@[simp] theorem State.clearRedraw_fault (s : State) : s.clearRedraw.fault = s.fault := rfl
@[simp] theorem State.clearRedraw_mem (s : State) : s.clearRedraw.mem = s.mem := rfl
@[simp] theorem State.clearRedraw_font (s : State) : s.clearRedraw.font = s.font := rfl
@[simp] theorem State.clearRedraw_entropy (s : State) : s.clearRedraw.entropy = s.entropy := rfl
@[simp] theorem State.clearRedraw_draws (s : State) : s.clearRedraw.draws = s.draws := rfl

/-! `State.consumeEntropy` writes entropy, draws. -/

@[simp] theorem State.consumeEntropy_v (s : State) : s.consumeEntropy.v = s.v := rfl
@[simp] theorem State.consumeEntropy_i (s : State) : s.consumeEntropy.i = s.i := rfl
@[simp] theorem State.consumeEntropy_pc (s : State) : s.consumeEntropy.pc = s.pc := rfl
@[simp] theorem State.consumeEntropy_stack (s : State) : s.consumeEntropy.stack = s.stack := rfl
@[simp] theorem State.consumeEntropy_sp (s : State) : s.consumeEntropy.sp = s.sp := rfl
@[simp] theorem State.consumeEntropy_dt (s : State) : s.consumeEntropy.dt = s.dt := rfl
@[simp] theorem State.consumeEntropy_st (s : State) : s.consumeEntropy.st = s.st := rfl
@[simp] theorem State.consumeEntropy_keys (s : State) : s.consumeEntropy.keys = s.keys := rfl
@[simp] theorem State.consumeEntropy_fb (s : State) : s.consumeEntropy.fb = s.fb := rfl
@[simp] theorem State.consumeEntropy_rd (s : State) : s.consumeEntropy.rd = s.rd := rfl
@[simp] theorem State.consumeEntropy_last (s : State) : s.consumeEntropy.last = s.last := rfl
@[simp] theorem State.consumeEntropy_fault (s : State) : s.consumeEntropy.fault = s.fault := rfl
@[simp] theorem State.consumeEntropy_mem (s : State) : s.consumeEntropy.mem = s.mem := rfl
@[simp] theorem State.consumeEntropy_font (s : State) : s.consumeEntropy.font = s.font := rfl
@[simp] theorem State.consumeEntropy_entropy (s : State) : s.consumeEntropy.entropy = s.entropy.tail := rfl
@[simp] theorem State.consumeEntropy_draws (s : State) : s.consumeEntropy.draws = s.draws + 1 := rfl

/-! `State.timerStep` writes dt, st. -/

@[simp] theorem State.timerStep_v (s : State) : s.timerStep.v = s.v := rfl
@[simp] theorem State.timerStep_i (s : State) : s.timerStep.i = s.i := rfl
@[simp] theorem State.timerStep_pc (s : State) : s.timerStep.pc = s.pc := rfl
@[simp] theorem State.timerStep_stack (s : State) : s.timerStep.stack = s.stack := rfl
@[simp] theorem State.timerStep_sp (s : State) : s.timerStep.sp = s.sp := rfl
@[simp] theorem State.timerStep_dt (s : State) : s.timerStep.dt = countDown s.dt := rfl
@[simp] theorem State.timerStep_st (s : State) : s.timerStep.st = countDown s.st := rfl
@[simp] theorem State.timerStep_keys (s : State) : s.timerStep.keys = s.keys := rfl
@[simp] theorem State.timerStep_fb (s : State) : s.timerStep.fb = s.fb := rfl
@[simp] theorem State.timerStep_rd (s : State) : s.timerStep.rd = s.rd := rfl
@[simp] theorem State.timerStep_last (s : State) : s.timerStep.last = s.last := rfl
@[simp] theorem State.timerStep_fault (s : State) : s.timerStep.fault = s.fault := rfl
@[simp] theorem State.timerStep_mem (s : State) : s.timerStep.mem = s.mem := rfl
@[simp] theorem State.timerStep_font (s : State) : s.timerStep.font = s.font := rfl
@[simp] theorem State.timerStep_entropy (s : State) : s.timerStep.entropy = s.entropy := rfl
@[simp] theorem State.timerStep_draws (s : State) : s.timerStep.draws = s.draws := rfl

/-! `State.latchFault` writes rd, fault. -/

@[simp] theorem State.latchFault_v (s : State) (f : Fault) : (s.latchFault f).v = s.v := rfl
@[simp] theorem State.latchFault_i (s : State) (f : Fault) : (s.latchFault f).i = s.i := rfl
@[simp] theorem State.latchFault_pc (s : State) (f : Fault) : (s.latchFault f).pc = s.pc := rfl
@[simp] theorem State.latchFault_stack (s : State) (f : Fault) : (s.latchFault f).stack = s.stack := rfl
@[simp] theorem State.latchFault_sp (s : State) (f : Fault) : (s.latchFault f).sp = s.sp := rfl
@[simp] theorem State.latchFault_dt (s : State) (f : Fault) : (s.latchFault f).dt = s.dt := rfl
@[simp] theorem State.latchFault_st (s : State) (f : Fault) : (s.latchFault f).st = s.st := rfl
@[simp] theorem State.latchFault_keys (s : State) (f : Fault) : (s.latchFault f).keys = s.keys := rfl
@[simp] theorem State.latchFault_fb (s : State) (f : Fault) : (s.latchFault f).fb = s.fb := rfl
@[simp] theorem State.latchFault_rd (s : State) (f : Fault) : (s.latchFault f).rd = false := rfl
@[simp] theorem State.latchFault_last (s : State) (f : Fault) : (s.latchFault f).last = s.last := rfl
@[simp] theorem State.latchFault_fault (s : State) (f : Fault) : (s.latchFault f).fault = some f := rfl
@[simp] theorem State.latchFault_mem (s : State) (f : Fault) : (s.latchFault f).mem = s.mem := rfl
@[simp] theorem State.latchFault_font (s : State) (f : Fault) : (s.latchFault f).font = s.font := rfl
@[simp] theorem State.latchFault_entropy (s : State) (f : Fault) : (s.latchFault f).entropy = s.entropy := rfl
@[simp] theorem State.latchFault_draws (s : State) (f : Fault) : (s.latchFault f).draws = s.draws := rfl

/-! `State.setLast` writes last. -/

@[simp] theorem State.setLast_v (s : State) (w : Word) : (s.setLast w).v = s.v := rfl
@[simp] theorem State.setLast_i (s : State) (w : Word) : (s.setLast w).i = s.i := rfl
@[simp] theorem State.setLast_pc (s : State) (w : Word) : (s.setLast w).pc = s.pc := rfl
@[simp] theorem State.setLast_stack (s : State) (w : Word) : (s.setLast w).stack = s.stack := rfl
@[simp] theorem State.setLast_sp (s : State) (w : Word) : (s.setLast w).sp = s.sp := rfl
@[simp] theorem State.setLast_dt (s : State) (w : Word) : (s.setLast w).dt = s.dt := rfl
@[simp] theorem State.setLast_st (s : State) (w : Word) : (s.setLast w).st = s.st := rfl
@[simp] theorem State.setLast_keys (s : State) (w : Word) : (s.setLast w).keys = s.keys := rfl
@[simp] theorem State.setLast_fb (s : State) (w : Word) : (s.setLast w).fb = s.fb := rfl
@[simp] theorem State.setLast_rd (s : State) (w : Word) : (s.setLast w).rd = s.rd := rfl
@[simp] theorem State.setLast_last (s : State) (w : Word) : (s.setLast w).last = w := rfl
@[simp] theorem State.setLast_fault (s : State) (w : Word) : (s.setLast w).fault = s.fault := rfl
@[simp] theorem State.setLast_mem (s : State) (w : Word) : (s.setLast w).mem = s.mem := rfl
@[simp] theorem State.setLast_font (s : State) (w : Word) : (s.setLast w).font = s.font := rfl
@[simp] theorem State.setLast_entropy (s : State) (w : Word) : (s.setLast w).entropy = s.entropy := rfl
@[simp] theorem State.setLast_draws (s : State) (w : Word) : (s.setLast w).draws = s.draws := rfl

/-! `State.setKey` writes keys. -/

@[simp] theorem State.setKey_v (s : State) (k : Fin 16) (b : Bool) : (s.setKey k b).v = s.v := rfl
@[simp] theorem State.setKey_i (s : State) (k : Fin 16) (b : Bool) : (s.setKey k b).i = s.i := rfl
@[simp] theorem State.setKey_pc (s : State) (k : Fin 16) (b : Bool) : (s.setKey k b).pc = s.pc := rfl
@[simp] theorem State.setKey_stack (s : State) (k : Fin 16) (b : Bool) : (s.setKey k b).stack = s.stack := rfl
@[simp] theorem State.setKey_sp (s : State) (k : Fin 16) (b : Bool) : (s.setKey k b).sp = s.sp := rfl
@[simp] theorem State.setKey_dt (s : State) (k : Fin 16) (b : Bool) : (s.setKey k b).dt = s.dt := rfl
@[simp] theorem State.setKey_st (s : State) (k : Fin 16) (b : Bool) : (s.setKey k b).st = s.st := rfl
@[simp] theorem State.setKey_keys (s : State) (k : Fin 16) (b : Bool) : (s.setKey k b).keys = s.keys.set k b := rfl
@[simp] theorem State.setKey_fb (s : State) (k : Fin 16) (b : Bool) : (s.setKey k b).fb = s.fb := rfl
@[simp] theorem State.setKey_rd (s : State) (k : Fin 16) (b : Bool) : (s.setKey k b).rd = s.rd := rfl
@[simp] theorem State.setKey_last (s : State) (k : Fin 16) (b : Bool) : (s.setKey k b).last = s.last := rfl
@[simp] theorem State.setKey_fault (s : State) (k : Fin 16) (b : Bool) : (s.setKey k b).fault = s.fault := rfl
@[simp] theorem State.setKey_mem (s : State) (k : Fin 16) (b : Bool) : (s.setKey k b).mem = s.mem := rfl
@[simp] theorem State.setKey_font (s : State) (k : Fin 16) (b : Bool) : (s.setKey k b).font = s.font := rfl
@[simp] theorem State.setKey_entropy (s : State) (k : Fin 16) (b : Bool) : (s.setKey k b).entropy = s.entropy := rfl
@[simp] theorem State.setKey_draws (s : State) (k : Fin 16) (b : Bool) : (s.setKey k b).draws = s.draws := rfl

/-! `State.withEntropy` writes entropy. -/

@[simp] theorem State.withEntropy_v (s : State) (e : Option Byte) : (s.withEntropy e).v = s.v := rfl
@[simp] theorem State.withEntropy_i (s : State) (e : Option Byte) : (s.withEntropy e).i = s.i := rfl
@[simp] theorem State.withEntropy_pc (s : State) (e : Option Byte) : (s.withEntropy e).pc = s.pc := rfl
@[simp] theorem State.withEntropy_stack (s : State) (e : Option Byte) : (s.withEntropy e).stack = s.stack := rfl
@[simp] theorem State.withEntropy_sp (s : State) (e : Option Byte) : (s.withEntropy e).sp = s.sp := rfl
@[simp] theorem State.withEntropy_dt (s : State) (e : Option Byte) : (s.withEntropy e).dt = s.dt := rfl
@[simp] theorem State.withEntropy_st (s : State) (e : Option Byte) : (s.withEntropy e).st = s.st := rfl
@[simp] theorem State.withEntropy_keys (s : State) (e : Option Byte) : (s.withEntropy e).keys = s.keys := rfl
@[simp] theorem State.withEntropy_fb (s : State) (e : Option Byte) : (s.withEntropy e).fb = s.fb := rfl
@[simp] theorem State.withEntropy_rd (s : State) (e : Option Byte) : (s.withEntropy e).rd = s.rd := rfl
@[simp] theorem State.withEntropy_last (s : State) (e : Option Byte) : (s.withEntropy e).last = s.last := rfl
@[simp] theorem State.withEntropy_fault (s : State) (e : Option Byte) : (s.withEntropy e).fault = s.fault := rfl
@[simp] theorem State.withEntropy_mem (s : State) (e : Option Byte) : (s.withEntropy e).mem = s.mem := rfl
@[simp] theorem State.withEntropy_font (s : State) (e : Option Byte) : (s.withEntropy e).font = s.font := rfl
@[simp] theorem State.withEntropy_entropy (s : State) (e : Option Byte) : (s.withEntropy e).entropy = e.toList := rfl
@[simp] theorem State.withEntropy_draws (s : State) (e : Option Byte) : (s.withEntropy e).draws = s.draws := rfl

/-! `State.placeWord` writes mem, fault. -/

@[simp] theorem State.placeWord_v (s : State) (w : Word) : (s.placeWord w).v = s.v := rfl
@[simp] theorem State.placeWord_i (s : State) (w : Word) : (s.placeWord w).i = s.i := rfl
@[simp] theorem State.placeWord_pc (s : State) (w : Word) : (s.placeWord w).pc = s.pc := rfl
@[simp] theorem State.placeWord_stack (s : State) (w : Word) : (s.placeWord w).stack = s.stack := rfl
@[simp] theorem State.placeWord_sp (s : State) (w : Word) : (s.placeWord w).sp = s.sp := rfl
@[simp] theorem State.placeWord_dt (s : State) (w : Word) : (s.placeWord w).dt = s.dt := rfl
@[simp] theorem State.placeWord_st (s : State) (w : Word) : (s.placeWord w).st = s.st := rfl
@[simp] theorem State.placeWord_keys (s : State) (w : Word) : (s.placeWord w).keys = s.keys := rfl
@[simp] theorem State.placeWord_fb (s : State) (w : Word) : (s.placeWord w).fb = s.fb := rfl
@[simp] theorem State.placeWord_rd (s : State) (w : Word) : (s.placeWord w).rd = s.rd := rfl
@[simp] theorem State.placeWord_last (s : State) (w : Word) : (s.placeWord w).last = s.last := rfl
@[simp] theorem State.placeWord_fault (s : State) (w : Word) : (s.placeWord w).fault = none := rfl
@[simp] theorem State.placeWord_mem (s : State) (w : Word) : (s.placeWord w).mem = Memory.writeBytes s.font s.mem s.pc.toNat [highByte w, lowByte w] := rfl
@[simp] theorem State.placeWord_font (s : State) (w : Word) : (s.placeWord w).font = s.font := rfl
@[simp] theorem State.placeWord_entropy (s : State) (w : Word) : (s.placeWord w).entropy = s.entropy := rfl
@[simp] theorem State.placeWord_draws (s : State) (w : Word) : (s.placeWord w).draws = s.draws := rfl

/-! Reading after writing. -/

theorem State.getV_eq (s : State) (x : Reg) : s.getV x = s.v[x.val] := rfl

@[simp] theorem State.getV_setV_same (s : State) (x : Reg) (b : Byte) : (s.setV x b).getV x = b := by
  simp [State.getV_eq]

theorem State.getV_setV_ne (s : State) {x k : Reg} (b : Byte) (h : k ≠ x) : (s.setV x b).getV k = s.getV k := by
  have hv : x.val ≠ k.val := fun e => h (Fin.ext e.symm)
  simp [State.getV_eq, Vector.getElem_set_ne _ _ hv]

/-- What every register reads after one register write. -/
theorem State.getV_setV (s : State) (x k : Reg) (b : Byte) :
    (s.setV x b).getV k = if k = x then b else s.getV k := by
  split
  · next h => subst h; simp
  · next h => exact s.getV_setV_ne b h

/-- What every register reads after a result and its flag are written: VF holds the flag, whatever x is. -/
theorem State.getV_setVFlag (s : State) (x k : Reg) (b : Byte) (f : Bool) :
    (s.setVFlag x b f).getV k = if k = VF then flagByte f else if k = x then b else s.getV k := by
  rw [State.setVFlag, State.getV_setV, State.getV_setV]

/-- A register read does not see an update that leaves V alone. -/
theorem State.getV_congr {s t : State} (h : t.v = s.v) (x : Reg) : t.getV x = s.getV x := by
  rw [State.getV, State.getV, h]

@[simp] theorem State.getV_jump (s : State) (w : Word) (x : Reg) : (s.jump w).getV x = s.getV x := rfl
@[simp] theorem State.getV_advance (s : State) (x : Reg) : s.advance.getV x = s.getV x := rfl
@[simp] theorem State.getV_present (s : State) (g : Framebuffer) (x : Reg) : (s.present g).getV x = s.getV x := rfl
@[simp] theorem State.getV_storeBytes (s : State) (a : Nat) (l : List Byte) (x : Reg) :
    (s.storeBytes a l).getV x = s.getV x := rfl

/-- A byte read does not see an update that leaves MEM and FONT alone. -/
theorem State.readByte_congr {s t : State} (hm : t.mem = s.mem) (hf : t.font = s.font) (a : Nat) :
    t.readByte a = s.readByte a := by
  rw [State.readByte, State.readByte, hm, hf]

@[simp] theorem State.readByte_jump (s : State) (w : Word) (a : Nat) : (s.jump w).readByte a = s.readByte a := rfl
@[simp] theorem State.readByte_advance (s : State) (a : Nat) : s.advance.readByte a = s.readByte a := rfl
@[simp] theorem State.readByte_setV (s : State) (x : Reg) (b : Byte) (a : Nat) :
    (s.setV x b).readByte a = s.readByte a := rfl

end Sys2Proof.Machine
end

