-- ==== Sys2Proof/Laws/Memory.lean ====
section
/-! SUPPORT. The laws of memory: a read after a write, and that every memory operation keeps the canonical form. -/

namespace Sys2Proof.Machine

/-! ## Lookup -/

@[simp] theorem Memory.lookup_nil (a : Nat) : Memory.lookup [] a = none := rfl

theorem Memory.lookup_erase (m : Memory) (a b : Nat) :
    Memory.lookup (Memory.erase m a) b = if b = a then none else Memory.lookup m b := by
  induction m with
  | nil => simp [Memory.erase]
  | cons p m ih =>
    obtain ⟨k, c⟩ := p
    simp only [Memory.erase] at ih
    by_cases hk : k = a
    · subst hk
      simp only [Memory.erase, List.filter_cons, bne_self_eq_false, Bool.false_eq_true, if_false, ih, Memory.lookup]
      by_cases hb : b = k
      · simp [hb]
      · simp [hb, Ne.symm hb]
    · simp only [Memory.erase, List.filter_cons, bne_iff_ne, ne_eq, hk, not_false_eq_true, if_true, Memory.lookup, ih]
      by_cases hb : k = b
      · subst hb; simp [hk]
      · simp [hb]

theorem Memory.lookup_insert {m : Memory} {a : Nat} (h : Memory.lookup m a = none) (v : Byte) (b : Nat) :
    Memory.lookup (Memory.insert m a v) b = if b = a then some v else Memory.lookup m b := by
  induction m with
  | nil => simp [Memory.insert, Memory.lookup, eq_comm]
  | cons p m ih =>
    obtain ⟨k, c⟩ := p
    have hka : k ≠ a := by
      intro e; simp [Memory.lookup, e] at h
    have hm : Memory.lookup m a = none := by simpa [Memory.lookup, hka] using h
    simp only [Memory.insert]
    split
    · simp only [Memory.lookup, eq_comm (a := a)]
    · simp only [Memory.lookup, ih hm]
      by_cases hb : k = b
      · subst hb; simp [hka]
      · simp [hb]

/-! ## Read after write (20_memory.md R71, R80) -/

/-- What every address reads after one byte is written. -/
theorem Memory.read_write (font : Vector Byte 80) (m : Memory) (a b : Nat) (v : Byte) :
    Memory.read font (Memory.write font m a v) b = if b = a then v else Memory.read font m b := by
  unfold Memory.read Memory.write
  have hnone : Memory.lookup (Memory.erase m a) a = none := by simp [Memory.lookup_erase]
  split
  · next hv =>
    rw [Memory.lookup_erase]
    split
    · next hb => simp [hb, hv]
    · rfl
  · rw [Memory.lookup_insert hnone, Memory.lookup_erase]
    split <;> rfl

/-- What every address reads after bytes are written from `a` up. -/
theorem Memory.read_writeBytes (font : Vector Byte 80) (l : List Byte) (m : Memory) (a b : Nat) :
    Memory.read font (Memory.writeBytes font m a l) b =
      if h : a ≤ b ∧ b - a < l.length then l[b - a]'h.2 else Memory.read font m b := by
  induction l generalizing m a with
  | nil => simp [Memory.writeBytes]
  | cons c l ih =>
    rw [Memory.writeBytes, ih, Memory.read_write]
    by_cases hba : b = a
    · subst hba
      simp
    · by_cases hle : a + 1 ≤ b
      · obtain ⟨d, rfl⟩ : ∃ d, b = a + 1 + d := ⟨b - (a + 1), by omega⟩
        have e1 : a + 1 + d - (a + 1) = d := by omega
        have e2 : a + 1 + d - a = d + 1 := by omega
        by_cases hd : d < l.length
        · have h1 : a + 1 ≤ a + 1 + d ∧ a + 1 + d - (a + 1) < l.length := by omega
          have h2 : a ≤ a + 1 + d ∧ a + 1 + d - a < (c :: l).length := by simp; omega
          rw [dif_pos h1, dif_pos h2]
          simp [e1, e2]
        · have h1 : ¬(a + 1 ≤ a + 1 + d ∧ a + 1 + d - (a + 1) < l.length) := by omega
          have h2 : ¬(a ≤ a + 1 + d ∧ a + 1 + d - a < (c :: l).length) := by simp; omega
          rw [dif_neg h1, dif_neg h2, if_neg hba]
      · have h1 : ¬(a + 1 ≤ b ∧ b - (a + 1) < l.length) := by omega
        have h2 : ¬(a ≤ b ∧ b - a < (c :: l).length) := by omega
        rw [dif_neg h1, dif_neg h2, if_neg hba]

/-- What every address reads after a store. -/
theorem State.readByte_storeBytes (s : State) (a b : Nat) (l : List Byte) :
    (s.storeBytes a l).readByte b =
      if h : a ≤ b ∧ b - a < l.length then l[b - a]'h.2 else s.readByte b :=
  Memory.read_writeBytes s.font l s.mem a b

/-! ## The canonical form -/

theorem Memory.wf_iff (font : Vector Byte 80) (m : Memory) :
    Memory.wf font m = true ↔
      m.Pairwise (fun p q => p.1 < q.1) ∧ ∀ p ∈ m, p.1 < Config.memSize ∧ p.2 ≠ Memory.unlisted font p.1 := by
  simp [Memory.wf]

theorem Memory.wf_nil (font : Vector Byte 80) : Memory.wf font [] = true := by
  simp [Memory.wf_iff]

theorem Memory.erase_wf {font : Vector Byte 80} {m : Memory} (h : Memory.wf font m = true) (a : Nat) :
    Memory.wf font (Memory.erase m a) = true := by
  rw [Memory.wf_iff] at h ⊢
  exact ⟨h.1.filter _, fun p hp => h.2 p (List.mem_filter.mp hp).1⟩

theorem Memory.mem_insert {m : Memory} {a : Nat} {v : Byte} {p : Host.Cell} :
    p ∈ Memory.insert m a v ↔ p = (a, v) ∨ p ∈ m := by
  induction m with
  | nil => simp [Memory.insert]
  | cons q m ih =>
    obtain ⟨k, c⟩ := q
    simp only [Memory.insert]
    split
    · simp
    · simp only [List.mem_cons, ih]
      tauto

theorem Memory.insert_sorted {m : Memory} {a : Nat} (h : m.Pairwise (fun p q => p.1 < q.1))
    (ha : ∀ p ∈ m, p.1 ≠ a) (v : Byte) : (Memory.insert m a v).Pairwise (fun p q => p.1 < q.1) := by
  induction m with
  | nil => simp [Memory.insert]
  | cons q m ih =>
    obtain ⟨k, c⟩ := q
    rw [List.pairwise_cons] at h
    simp only [Memory.insert]
    split
    · next hak =>
      refine List.pairwise_cons.mpr ⟨?_, List.pairwise_cons.mpr h⟩
      intro p hp
      rcases List.mem_cons.mp hp with rfl | hp
      · exact hak
      · exact lt_trans hak (h.1 p hp)
    · next hak =>
      have hka : k ≠ a := ha (k, c) (by simp)
      refine List.pairwise_cons.mpr ⟨?_, ih h.2 fun p hp => ha p (by simp [hp])⟩
      intro p hp
      rcases Memory.mem_insert.mp hp with rfl | hp
      · show k < a
        omega
      · exact h.1 p hp

/-- A write inside the address space keeps the canonical form. -/
theorem Memory.write_wf {font : Vector Byte 80} {m : Memory} (h : Memory.wf font m = true) {a : Nat}
    (ha : a < Config.memSize) (v : Byte) : Memory.wf font (Memory.write font m a v) = true := by
  have he := Memory.erase_wf h a
  unfold Memory.write
  split
  · exact he
  · next hv =>
    rw [Memory.wf_iff] at he ⊢
    refine ⟨Memory.insert_sorted he.1 (fun p hp => ?_) v, fun p hp => ?_⟩
    · simpa [bne_iff_ne] using (List.mem_filter.mp hp).2
    · rcases Memory.mem_insert.mp hp with rfl | hp
      · exact ⟨ha, hv⟩
      · exact he.2 p hp

/-- A store inside the address space keeps the canonical form. -/
theorem Memory.writeBytes_wf {font : Vector Byte 80} (l : List Byte) {m : Memory}
    (h : Memory.wf font m = true) {a : Nat} (ha : a + l.length ≤ Config.memSize) :
    Memory.wf font (Memory.writeBytes font m a l) = true := by
  induction l generalizing m a with
  | nil => simpa [Memory.writeBytes] using h
  | cons c l ih =>
    rw [List.length_cons] at ha
    rw [Memory.writeBytes]
    exact ih (Memory.write_wf h (by omega) c) (by omega)

/-- In canonical form the bytes read determine the list: equal memories are equal data. -/
theorem Memory.lookup_eq_some {font : Vector Byte 80} {m : Memory} (h : Memory.wf font m = true) {a : Nat} {v : Byte} :
    Memory.lookup m a = some v ↔ (a, v) ∈ m := by
  rw [Memory.wf_iff] at h
  obtain ⟨hs, -⟩ := h
  induction m with
  | nil => simp
  | cons q m ih =>
    obtain ⟨k, c⟩ := q
    rw [List.pairwise_cons] at hs
    simp only [Memory.lookup, List.mem_cons, Prod.mk.injEq]
    split
    · next hk =>
      subst hk
      constructor
      · intro e; simp at e; simp [e]
      · rintro (⟨-, rfl⟩ | hm)
        · rfl
        · exact absurd (hs.1 _ hm) (lt_irrefl _)
    · next hk =>
      rw [ih hs.2]
      constructor
      · exact Or.inr
      · rintro (⟨rfl, -⟩ | hm)
        · exact absurd rfl hk
        · exact hm

end Sys2Proof.Machine
end

