-- ==== Sys2Proof/Laws/Boundary.lean ====
section
/-! SUPPORT. What each move of the host does to the block: the field lemmas of a reset in use, the two ways a load
goes, and the inversion of `Bench.act`, which later proofs cite and do not unfold. -/

namespace Sys2Proof.Machine

@[simp] theorem State.renew_pc (s : State) : s.renew.pc = Config.pcReset := rfl
@[simp] theorem State.renew_stack (s : State) : s.renew.stack = Vector.replicate 16 0 := rfl
@[simp] theorem State.renew_fault (s : State) : s.renew.fault = none := rfl
@[simp] theorem State.renew_mem (s : State) : s.renew.mem = [] := rfl
@[simp] theorem State.renew_font (s : State) : s.renew.font = s.font := rfl

/-- A load of at most 3584 bytes stores them from 0x200 up (70_reset_and_hazards.md R394). -/
theorem State.loadProgram_ok (s : State) {bytes : List Byte} (h : bytes.length ≤ Config.loadMax) :
    s.loadProgram bytes = (s.storeBytes Config.loadBase bytes, .ok) := by
  simp [State.loadProgram, WellFormed.loadableImage, h]

/-- A longer one is rejected (70_reset_and_hazards.md R395). -/
theorem State.loadProgram_tooLarge (s : State) {bytes : List Byte} (h : ¬bytes.length ≤ Config.loadMax) :
    s.loadProgram bytes = (s, .programTooLarge) := by
  simp [State.loadProgram, WellFormed.loadableImage, h]

/-- A load keeps the canonical form of memory, since 0x200 + 3584 is the end of the address space. -/
theorem State.loadProgram_wf (s : State) (bytes : List Byte) (h : Memory.wf s.font s.mem = true) :
    Memory.wf (s.loadProgram bytes).1.font (s.loadProgram bytes).1.mem = true := by
  by_cases hl : bytes.length ≤ Config.loadMax
  · rw [State.loadProgram_ok s hl]
    exact Memory.writeBytes_wf bytes h (by simp only [Config.loadMax] at hl; simp only [Config.loadBase, Config.memSize]; omega)
  · rwa [State.loadProgram_tooLarge s hl]

/-- Everything an admitted move of the host can do, with what admits it (60_exceptions.md R371). -/
theorem Bench.act_cases {b b' : Bench} {a : HostAction} (h : b.act a = some b') :
    (a = .new ∧ b' = ⟨b.block.renew, false, false⟩) ∨
    (∃ bytes, a = .loadProgram bytes ∧ b.loaded = false ∧ b.started = false ∧ b.block.fault = none ∧
      b' = { b with block := (b.block.loadProgram bytes).1, loaded := decide (bytes.length ≤ Config.loadMax) }) ∨
    (∃ k pressed, a = .setKey k pressed ∧ b.block.fault = none ∧ b' = { b with block := b.block.setKey k pressed }) ∨
    (∃ source s, a = .cycle source ∧ step (b.block.withEntropy source) = .next s ∧
      b' = { b with block := s, started := true }) := by
  cases a with
  | new => exact .inl ⟨rfl, (Option.some.inj h).symm⟩
  | loadProgram bytes =>
    simp only [Bench.act] at h
    split at h
    · cases h
    · rename_i hg
      simp only [Bool.or_eq_true, not_or, Bool.not_eq_true, State.faulted, Option.isSome_eq_false_iff,
        Option.isNone_iff_eq_none] at hg
      refine .inr (.inl ⟨bytes, rfl, hg.1.1, hg.1.2, hg.2, ?_⟩)
      by_cases hl : bytes.length ≤ Config.loadMax
      · rw [State.loadProgram_ok _ hl] at h ⊢
        simpa [hl] using h.symm
      · rw [State.loadProgram_tooLarge _ hl] at h ⊢
        have hr : (LoadResult.programTooLarge == LoadResult.ok) = false := rfl
        simpa [hl, hr] using h.symm
  | setKey k pressed =>
    simp only [Bench.act] at h
    split at h
    · cases h
    · rename_i hg
      exact .inr (.inr (.inl ⟨k, pressed, rfl, by simpa [State.faulted] using hg, (Option.some.inj h).symm⟩))
  | cycle source =>
    simp only [Bench.act] at h
    split at h
    · exact .inr (.inr (.inr ⟨source, _, rfl, ‹_›, (Option.some.inj h).symm⟩))
    · cases h
    · cases h

end Sys2Proof.Machine
end

