-- ==== Sys2Proof/Laws/Decode.lean ====
section
/-! SUPPORT. The fields of a word and the formats of the encoder as numbers: every shift, mask and OR of Decode is a
quotient, remainder or sum. -/

namespace Sys2Proof

theorem fieldOp_toNat (w : Word) : (fieldOp w).toNat = w.toNat / 4096 := by
  have := w.isLt
  rw [fieldOp, BitVec.extractLsb'_toNat, Nat.shiftRight_eq_div_pow]
  omega

theorem fieldX_val (w : Word) : (fieldX w).val = w.toNat / 256 % 16 := by
  show (w.extractLsb' 8 4).toNat = _
  rw [BitVec.extractLsb'_toNat, Nat.shiftRight_eq_div_pow]

theorem fieldY_val (w : Word) : (fieldY w).val = w.toNat / 16 % 16 := by
  show (w.extractLsb' 4 4).toNat = _
  rw [BitVec.extractLsb'_toNat, Nat.shiftRight_eq_div_pow]

theorem fieldN_toNat (w : Word) : (fieldN w).toNat = w.toNat % 16 := by
  rw [fieldN, BitVec.extractLsb'_toNat, Nat.shiftRight_zero]

theorem fieldKK_toNat (w : Word) : (fieldKK w).toNat = w.toNat % 256 := by
  rw [fieldKK, BitVec.extractLsb'_toNat, Nat.shiftRight_zero]

theorem fieldNNN_toNat (w : Word) : (fieldNNN w).toNat = w.toNat % 4096 := by
  rw [fieldNNN, BitVec.extractLsb'_toNat, Nat.shiftRight_zero]

theorem highByte_toNat (w : Word) : (highByte w).toNat = w.toNat / 256 := by
  have := w.isLt
  rw [highByte, BitVec.extractLsb'_toNat, Nat.shiftRight_eq_div_pow]
  omega

theorem lowByte_toNat (w : Word) : (lowByte w).toNat = w.toNat % 256 := by
  rw [lowByte, BitVec.extractLsb'_toNat, Nat.shiftRight_zero]

theorem regBits_toNat (x : Reg) : (regBits x).toNat = x.val := by
  have := x.isLt
  rw [regBits, BitVec.toNat_setWidth, BitVec.toNat_ofFin]
  omega

/-- An OR with a number below the lowest bit of the other operand is a sum. -/
theorem or_eq_add_of_lt {a b k : Nat} (ha : 2 ^ k ∣ a) (hb : b < 2 ^ k) : a ||| b = a + b := by
  obtain ⟨c, rfl⟩ := ha
  exact (Nat.two_pow_add_eq_or_of_lt hb c).symm

/-- Format A as a number, for a base whose low twelve bits are zero. -/
theorem formatA_toNat (base : Word) (nnn : Addr12) (h : base.toNat % 4096 = 0) :
    (formatA base nnn).toNat = base.toNat + nnn.toNat := by
  have hn := nnn.isLt
  have e : (zext16 nnn).toNat = nnn.toNat := by
    rw [BitVec.toNat_setWidth]
    omega
  rw [formatA, BitVec.toNat_or, e]
  exact or_eq_add_of_lt (k := 12) (by omega) hn

/-- Format B as a number, for a base whose low twelve bits are zero. -/
theorem formatB_toNat (base : Word) (x : Reg) (kk : Byte) (h : base.toNat % 4096 = 0) :
    (formatB base x kk).toNat = base.toNat + 256 * x.val + kk.toNat := by
  have hx := x.isLt
  have hk := kk.isLt
  have e1 : (regBits x <<< 8).toNat = 256 * x.val := by
    rw [BitVec.toNat_shiftLeft, regBits_toNat, Nat.shiftLeft_eq]
    omega
  have e2 : (zext16 kk).toNat = kk.toNat := by
    rw [BitVec.toNat_setWidth]
    omega
  have o1 : base.toNat ||| 256 * x.val = base.toNat + 256 * x.val := or_eq_add_of_lt (k := 12) (by omega) (by omega)
  rw [formatB, BitVec.toNat_or, BitVec.toNat_or, e1, e2, o1]
  exact or_eq_add_of_lt (k := 8) (by omega) hk

/-- Format D as a number, for a base whose low twelve bits are zero. -/
theorem formatD_toNat (base : Word) (x y : Reg) (n : BitVec 4) (h : base.toNat % 4096 = 0) :
    (formatD base x y n).toNat = base.toNat + 256 * x.val + 16 * y.val + n.toNat := by
  have hx := x.isLt
  have hy := y.isLt
  have hn := n.isLt
  have e1 : (regBits x <<< 8).toNat = 256 * x.val := by
    rw [BitVec.toNat_shiftLeft, regBits_toNat, Nat.shiftLeft_eq]
    omega
  have e2 : (regBits y <<< 4).toNat = 16 * y.val := by
    rw [BitVec.toNat_shiftLeft, regBits_toNat, Nat.shiftLeft_eq]
    omega
  have e3 : (zext16 n).toNat = n.toNat := by
    rw [BitVec.toNat_setWidth]
    omega
  have o1 : base.toNat ||| 256 * x.val = base.toNat + 256 * x.val := or_eq_add_of_lt (k := 12) (by omega) (by omega)
  have o2 : base.toNat + 256 * x.val ||| 16 * y.val = base.toNat + 256 * x.val + 16 * y.val :=
    or_eq_add_of_lt (k := 8) (by omega) (by omega)
  rw [formatD, BitVec.toNat_or, BitVec.toNat_or, BitVec.toNat_or, e1, e2, e3, o1, o2]
  exact or_eq_add_of_lt (k := 4) (by omega) hn

end Sys2Proof
end

