-- ==== Sys2Proof/Laws/Ops.lean ====
section
/-! SUPPORT. One lemma per operand, flag and shared operation that says what it gives, and the inversion of a cycle: what
one step can do. Later proofs cite these and do not unfold the operation. -/

namespace Sys2Proof.Machine

/-! ## Operands -/

theorem offsetTarget_toNat (v0 : Byte) (nnn : Addr12) : (offsetTarget v0 nnn).toNat = v0.toNat + nnn.toNat := by
  have h1 := v0.isLt
  have h2 := nnn.isLt
  simp only [offsetTarget, zext16, BitVec.toNat_add, BitVec.toNat_setWidth]
  omega

theorem indexSum_toNat (i : Word) (b : Byte) : (indexSum i b).toNat = i.toNat + b.toNat := by
  have h1 := i.isLt
  have h2 := b.isLt
  simp only [indexSum, BitVec.toNat_add, BitVec.toNat_setWidth]
  omega

theorem glyphAddress_toNat (b : Byte) : (glyphAddress b).toNat = 5 * (b.toNat % 16) := by
  have h1 : (b &&& 15#8).toNat = b.toNat % 16 := by
    rw [BitVec.toNat_and]
    exact Nat.and_two_pow_sub_one_eq_mod _ 4
  have h2 := b.isLt
  simp only [glyphAddress, zext16, BitVec.toNat_mul, BitVec.toNat_setWidth, BitVec.ofNat_eq_ofNat, h1, BitVec.toNat_ofNat]
  omega

/-- No fault exactly when there is nothing to access or the whole access lies inside the address space. -/
theorem outOfRange_eq_false (base : Word) (count : Nat) :
    outOfRange base count = false ↔ count = 0 ∨ base.toNat + count ≤ Config.memSize := by
  simp only [outOfRange, decide_eq_false_iff_not, Config.memSize]
  omega

/-- The range check in the form of the rules: `n > 0 and I + n - 1 > 0xFFF` (41_display.md R171). -/
theorem outOfRange_eq_true (base : Word) (count : Nat) :
    outOfRange base count = true ↔ 0 < count ∧ 0xFFF < base.toNat + count - 1 := by
  simp only [outOfRange, decide_eq_true_eq]
  omega

/-- The range check of three bytes (44_index_memory.md R263). -/
theorem outOfRange_three (base : Word) : outOfRange base 3 = true ↔ 0xFFF < base.toNat + 2 := by
  rw [outOfRange_eq_true]
  omega

/-- The range check of V0..Vx (44_index_memory.md R264, R265). -/
theorem outOfRange_succ (base : Word) (x : Nat) : outOfRange base (x + 1) = true ↔ 0xFFF < base.toNat + x := by
  rw [outOfRange_eq_true]
  omega

theorem firstBadAddress_toNat (base : Word) : (firstBadAddress base).toNat = max base.toNat 0x1000 := by
  unfold firstBadAddress
  split
  · simp only [BitVec.ofNat_eq_ofNat, BitVec.toNat_ofNat]; omega
  · omega

theorem firstBadAddress_eq (base : Word) : firstBadAddress base = BitVec.ofNat 16 (max base.toNat 0x1000) := by
  apply BitVec.eq_of_toNat_eq
  have := base.isLt
  rw [firstBadAddress_toNat, BitVec.toNat_ofNat]
  omega

theorem indexSum_eq (i : Word) (b : Byte) : indexSum i b = BitVec.ofNat 17 (i.toNat + b.toNat) := by
  apply BitVec.eq_of_toNat_eq
  have h1 := i.isLt
  have h2 := b.isLt
  rw [indexSum_toNat, BitVec.toNat_ofNat]
  omega

theorem decimalDigits_toNat (b : Byte) :
    (decimalDigits b).map BitVec.toNat = [b.toNat / 100, (b.toNat / 10) % 10, b.toNat % 10] := by
  simp [decimalDigits, BitVec.toNat_udiv, BitVec.toNat_umod]

@[simp] theorem decimalDigits_length (b : Byte) : (decimalDigits b).length = 3 := rfl

@[simp] theorem regsUpTo_length : ∀ x : Reg, (regsUpTo x).length = x.val + 1 := by decide

theorem mem_regsUpTo (x k : Reg) : k ∈ regsUpTo x ↔ k ≤ x := by
  simp [regsUpTo]

/-- The j-th register of V0..Vx is V[j]. -/
theorem regsUpTo_get? : ∀ (x k : Reg), k ≤ x → (regsUpTo x)[k.val]? = some k := by decide

theorem spriteColumn_val (c0 : Byte) (c : Nat) : (spriteColumn c0 c).val = (c0.toNat + c) % 64 := rfl

theorem spriteRow_val (r0 : Byte) (r : Nat) : (spriteRow r0 r).val = (r0.toNat + r) % 32 := rfl

/-- The eight columns of a sprite row are distinct (41_display.md R173). -/
theorem spriteColumn_inj (c0 : Byte) {c c' : Nat} (hc : c < 8) (hc' : c' < 8)
    (h : spriteColumn c0 c = spriteColumn c0 c') : c = c' := by
  have := congrArg Fin.val h
  simp only [spriteColumn_val] at this
  omega

/-- The rows of a sprite are distinct (41_display.md R173). -/
theorem spriteRow_inj (r0 : Byte) {r r' : Nat} (hr : r < 16) (hr' : r' < 16)
    (h : spriteRow r0 r = spriteRow r0 r') : r = r' := by
  have := congrArg Fin.val h
  simp only [spriteRow_val] at this
  omega

/-! ## Flags -/

@[simp] theorem flagByte_toNat (f : Bool) : (flagByte f).toNat = if f then 1 else 0 := by
  cases f <;> rfl

/-! ## Registers loaded from memory -/

/-- A load of registers changes V alone. -/
theorem State.loadRegs_frame (l : List Reg) (s : State) (a : Nat) :
    s.loadRegs a l = { s with v := (s.loadRegs a l).v } := by
  induction l generalizing s a with
  | nil => rfl
  | cons x l ih => rw [State.loadRegs, ih]; rfl

theorem State.readByte_loadRegs (l : List Reg) (s : State) (a b : Nat) : (s.loadRegs a l).readByte b = s.readByte b := by
  rw [State.loadRegs_frame]; rfl

/-- A register not in the list keeps its value. -/
theorem State.getV_loadRegs_not_mem (l : List Reg) (s : State) (a : Nat) {k : Reg} (h : k ∉ l) :
    (s.loadRegs a l).getV k = s.getV k := by
  induction l generalizing s a with
  | nil => rfl
  | cons x l ih =>
    rw [List.mem_cons, not_or] at h
    rw [State.loadRegs, ih _ _ h.2, State.getV_setV_ne _ _ h.1]

/-- The j-th register of a list without repeats gets the byte at a + j. -/
theorem State.getV_loadRegs_mem (l : List Reg) (hl : l.Nodup) (s : State) (a j : Nat) {k : Reg} (h : l[j]? = some k) :
    (s.loadRegs a l).getV k = s.readByte (a + j) := by
  induction l generalizing s a j with
  | nil => simp at h
  | cons x l ih =>
    rw [List.nodup_cons] at hl
    rw [State.loadRegs]
    cases j with
    | zero =>
      obtain rfl : x = k := by simpa using h
      rw [State.getV_loadRegs_not_mem _ _ _ hl.1]
      simp
    | succ j =>
      rw [ih hl.2 _ _ j (by simpa using h), State.readByte_setV]
      congr 1
      omega

/-! ## The call stack -/

theorem State.popSlot_val (s : State) : s.popSlot.val = s.sp.val - 1 := by
  unfold State.popSlot
  split
  · rfl
  · simp only [Fin.val_zero]; omega

/-- A push fails exactly on a full stack. -/
theorem State.push_eq_none (s : State) (w : Word) : s.push w = none ↔ s.sp.val = 16 := by
  have := s.sp.isLt
  unfold State.push
  split
  · simp; omega
  · simp; omega

/-- What a push that succeeds has done. -/
theorem State.push_eq_some {s t : State} {w : Word} (h : s.push w = some t) :
    ∃ hs : s.sp.val < 16, t = { s with stack := s.stack.set s.sp.val w, sp := ⟨s.sp.val + 1, by omega⟩ } := by
  unfold State.push at h
  split at h
  · next hs => exact ⟨hs, (Option.some.inj h).symm⟩
  · exact absurd h (by simp)

/-! ## Keys -/

theorem State.leastKey_eq_none (s : State) : s.leastKey = none ↔ ∀ k, s.key k = false := by
  simp [State.leastKey, List.find?_eq_none]

/-- The key found is pressed and every key below it is released. -/
theorem State.leastKey_eq_some (s : State) (k : Fin 16) :
    s.leastKey = some k ↔ s.key k = true ∧ ∀ j, j < k → s.key j = false := by
  unfold State.leastKey
  rw [List.find?_eq_some_iff_getElem]
  constructor
  · rintro ⟨hk, i, hi, he, hlt⟩
    refine ⟨hk, fun j hj => ?_⟩
    have hik : i = k.val := by rw [← he]; simp
    have := hlt j.val (by have : j.val < k.val := hj; omega)
    simpa using this
  · rintro ⟨hk, hlt⟩
    refine ⟨hk, k.val, by simp, by simp, fun j hj => ?_⟩
    have hj16 : j < 16 := lt_trans hj k.isLt
    simpa using hlt ⟨j, hj16⟩ hj

theorem keyNamed_eq_none (b : Byte) : keyNamed b = none ↔ 15 < b.toNat := by
  unfold keyNamed
  split
  · simp; omega
  · simp; omega

theorem keyNamed_eq_some (b : Byte) (k : Fin 16) : keyNamed b = some k ↔ b.toNat = k.val := by
  unfold keyNamed
  split
  · simp [Fin.ext_iff]
  · simp; omega

/-! ## Timers -/

theorem countDown_toNat (t : Byte) : (countDown t).toNat = t.toNat - 1 := by
  unfold countDown
  split
  · next h => subst h; rfl
  · next h =>
    have : t.toNat ≠ 0 := fun e => h (BitVec.eq_of_toNat_eq (by simpa using e))
    have h2 := t.isLt
    rw [BitVec.toNat_sub]
    simp only [BitVec.ofNat_eq_ofNat, BitVec.toNat_ofNat]
    omega

/-! ## Fetch -/

/-- The big-endian word in numbers (20_memory.md R75). -/
theorem wordOfBytes_toNat (a b : Byte) : (wordOfBytes a b).toNat = 256 * a.toNat + b.toNat := by
  have h1 := a.isLt
  have h2 := b.isLt
  have e1 : (a.setWidth 16 <<< 8 : Word).toNat = 2 ^ 8 * a.toNat := by
    rw [BitVec.toNat_shiftLeft, BitVec.toNat_setWidth, Nat.shiftLeft_eq]
    omega
  have e2 : (b.setWidth 16 : Word).toNat = b.toNat := by
    rw [BitVec.toNat_setWidth]
    omega
  rw [wordOfBytes, BitVec.toNat_or, e1, e2, ← Nat.two_pow_add_eq_or_of_lt h2]

theorem wordOfBytes_highByte_lowByte (w : Word) : wordOfBytes (highByte w) (lowByte w) = w := by
  ext j hj
  simp only [wordOfBytes, highByte, lowByte, BitVec.getElem_or, BitVec.getElem_shiftLeft, BitVec.getElem_setWidth,
    BitVec.getLsbD_extractLsb']
  by_cases h : j < 8
  · simp [h, BitVec.getLsbD_eq_getElem hj]
  · have h2 : 8 + (j - 8) = j := by omega
    have h3 : j - 8 < 8 := by omega
    simp [h, h2, h3, BitVec.getLsbD_eq_getElem hj]

/-- A word placed for the next fetch is the word it fetches. -/
theorem State.fetchWord_placeWord (s : State) (w : Word) : (s.placeWord w).fetchWord = w := by
  have e : ∀ b, (s.placeWord w).readByte b = (s.storeBytes s.pc.toNat [highByte w, lowByte w]).readByte b :=
    fun _ => rfl
  rw [State.fetchWord, e, e]
  simp [State.readByte_storeBytes, wordOfBytes_highByte_lowByte]

/-! ## What one step can do (40_cycle.md R141)

The four ways a step goes on, in the order of its checks (60_exceptions.md R335). -/

/-- The end of a cycle answers next exactly when the instruction did, after the timer step unless a fault is latched. -/
theorem finishCycle_eq_next {o : Host.Outcome State Fault Refusal} {u : State} :
    finishCycle o = .next u ↔
      ∃ t, o = .next t ∧ (t.faulted = true ∧ u = t ∨ t.faulted = false ∧ u = t.timerStep) := by
  cases o with
  | next t =>
    constructor
    · intro h
      refine ⟨t, rfl, ?_⟩
      simp only [finishCycle] at h
      split at h
      · next hf => exact .inl ⟨hf, (Host.Outcome.next.inj h).symm⟩
      · next hf => exact .inr ⟨by simpa using hf, (Host.Outcome.next.inj h).symm⟩
    · rintro ⟨_, ⟨⟩, ⟨hf, rfl⟩ | ⟨hf, rfl⟩⟩ <;> simp [finishCycle, hf]
  | fault f => simp [finishCycle]
  | refused r => simp [finishCycle]

theorem step_cases {s u : State} (h : step s = .next u) :
    (s.faulted = true ∧ u = s) ∨
    (s.faulted = false ∧ s.fetchFaults = true ∧ u = s.latchFault (.fetchOutOfRange s.pc)) ∨
    (s.faulted = false ∧ s.fetchFaults = false ∧ (∃ e, decodeWord s.fetchWord = .error e) ∧
      u = ((s.clearRedraw.setLast s.fetchWord).latchFault (.illegalOpcode s.fetchWord s.pc))) ∨
    (s.faulted = false ∧ s.fetchFaults = false ∧ ∃ i t, decodeWord s.fetchWord = .ok i ∧
      exec i (s.clearRedraw.setLast s.fetchWord) = .next t ∧
      (t.faulted = true ∧ u = t ∨ t.faulted = false ∧ u = t.timerStep)) := by
  have hw : s.clearRedraw.fetchWord = s.fetchWord := rfl
  have hr : s.clearRedraw.fetchFaults = s.fetchFaults := rfl
  unfold step cycle at h
  split at h
  · next hf => exact .inl ⟨hf, (Host.Outcome.next.inj h).symm⟩
  · next hf =>
    simp only [Bool.not_eq_true] at hf
    unfold fetchAndRun at h
    rw [hr, hw] at h
    split at h
    · next hp => exact .inr (.inl ⟨hf, hp, (Host.Outcome.next.inj h).symm⟩)
    · next hp =>
      simp only [Bool.not_eq_true] at hp
      unfold decodeAndExecute at h
      split at h
      · next i hd =>
        obtain ⟨t, ht, hu⟩ := finishCycle_eq_next.mp h
        exact .inr (.inr (.inr ⟨hf, hp, i, t, hd, ht, hu⟩))
      · next e hd => exact .inr (.inr (.inl ⟨hf, hp, ⟨e, hd⟩, (Host.Outcome.next.inj h).symm⟩))

end Sys2Proof.Machine
end

