-- ==== Sys2Proof/Laws/Draw.lean ====
section
/-! SUPPORT. What plotting one bit and one row does to every cell and to the collision (41_display.md R171 to R173). -/

namespace Sys2Proof.Machine

theorem Framebuffer.pixel_setPixel (fb : Framebuffer) (c c' : Fin 64) (r r' : Fin 32) (b : Bool) :
    (fb.setPixel c r b).pixel c' r' = if c = c' ∧ r = r' then b else fb.pixel c' r' := by
  simp only [Framebuffer.pixel, Framebuffer.setPixel, Vector.get_eq_getElem, Vector.getElem_set, Fin.ext_iff]
  by_cases hc : c.val = c'.val
  · by_cases hr : r.val = r'.val
    · simp [hc, hr]
    · have : c = c' := Fin.ext hc
      subst this
      simp [hr]
  · simp [hc]

@[simp] theorem Framebuffer.pixel_blank (c : Fin 64) (r : Fin 32) : Framebuffer.blank.pixel c r = false := by
  simp [Framebuffer.pixel, Framebuffer.blank, Vector.get_eq_getElem]

/-- A plotted bit is exclusive-ored into its cell and touches no other. -/
theorem plotBit_pixel (d : Drawing) (c c' : Fin 64) (r r' : Fin 32) (bit : Bool) :
    (plotBit d c r bit).1.pixel c' r' =
      if c = c' ∧ r = r' ∧ bit = true then !(d.1.pixel c' r') else d.1.pixel c' r' := by
  cases bit
  · simp [plotBit]
  · simp only [plotBit, if_true, Framebuffer.pixel_setPixel, and_true]
    split
    · next h => rw [h.1, h.2]
    · rfl

theorem plotBit_collision (d : Drawing) (c : Fin 64) (r : Fin 32) (bit : Bool) :
    (plotBit d c r bit).2 = (d.2 || (d.1.pixel c r && bit)) := by
  cases bit <;> simp [plotBit, collides]

/-- The first k bits of a row toggle exactly the cells they reach with value 1. -/
theorem plotBits_pixel (d : Drawing) (c0 : Byte) (row : Fin 32) (b : Byte) (k : Nat) (hk : k ≤ 8) (c : Fin 64)
    (r : Fin 32) :
    (((List.range k).foldl (fun d j => plotBit d (spriteColumn c0 j) row (spriteBit b j)) d).1.pixel c r = true) ↔
      (d.1.pixel c r = true ↔ ¬(row = r ∧ ∃ j, j < k ∧ spriteColumn c0 j = c ∧ spriteBit b j = true)) := by
  induction k with
  | zero => simp
  | succ k ih =>
    rw [List.range_succ, List.foldl_append, List.foldl_cons, List.foldl_nil, plotBit_pixel]
    have ih := ih (by omega)
    by_cases h : spriteColumn c0 k = c ∧ row = r ∧ spriteBit b k = true
    · have hnone : ¬∃ j, j < k ∧ spriteColumn c0 j = c ∧ spriteBit b j = true := by
        rintro ⟨j, hj, hc, -⟩
        have := spriteColumn_inj c0 (by omega) (by omega) (hc.trans h.1.symm)
        omega
      have hsome : row = r ∧ ∃ j, j < k + 1 ∧ spriteColumn c0 j = c ∧ spriteBit b j = true :=
        ⟨h.2.1, k, by omega, h.1, h.2.2⟩
      simp only [hnone, and_false, not_false_eq_true, iff_true] at ih
      rw [if_pos h, Bool.not_eq_true', ← Bool.not_eq_true, ih, iff_false_right (not_not.mpr hsome)]
    · have e : (row = r ∧ ∃ j, j < k + 1 ∧ spriteColumn c0 j = c ∧ spriteBit b j = true) ↔
          (row = r ∧ ∃ j, j < k ∧ spriteColumn c0 j = c ∧ spriteBit b j = true) := by
        constructor
        · rintro ⟨hr, j, hj, hc, hb⟩
          refine ⟨hr, j, ?_, hc, hb⟩
          by_contra hjk
          obtain rfl : j = k := by omega
          exact h ⟨hc, hr, hb⟩
        · rintro ⟨hr, j, hj, hc, hb⟩
          exact ⟨hr, j, by omega, hc, hb⟩
      rw [if_neg h, e]
      exact ih

/-- The first k bits of a row collide exactly when one of value 1 meets a cell that was set. -/
theorem plotBits_collision (d : Drawing) (c0 : Byte) (row : Fin 32) (b : Byte) (k : Nat) (hk : k ≤ 8) :
    (((List.range k).foldl (fun d j => plotBit d (spriteColumn c0 j) row (spriteBit b j)) d).2 = true) ↔
      (d.2 = true ∨ ∃ j, j < k ∧ d.1.pixel (spriteColumn c0 j) row = true ∧ spriteBit b j = true) := by
  induction k with
  | zero => simp
  | succ k ih =>
    rw [List.range_succ, List.foldl_append, List.foldl_cons, List.foldl_nil, plotBit_collision]
    have hp := plotBits_pixel d c0 row b k (by omega) (spriteColumn c0 k) row
    have hnone : ¬∃ j, j < k ∧ spriteColumn c0 j = spriteColumn c0 k ∧ spriteBit b j = true := by
      rintro ⟨j, hj, hc, -⟩
      have := spriteColumn_inj c0 (by omega) (by omega) hc
      omega
    simp only [hnone, and_false, not_false_eq_true, iff_true] at hp
    simp only [Bool.or_eq_true, Bool.and_eq_true, ih (by omega), hp]
    constructor
    · rintro ((h | ⟨j, hj, h⟩) | h)
      · exact .inl h
      · exact .inr ⟨j, by omega, h⟩
      · exact .inr ⟨k, by omega, h⟩
    · rintro (h | ⟨j, hj, h⟩)
      · exact .inl (.inl h)
      · by_cases hjk : j = k
        · subst hjk; exact .inr h
        · exact .inl (.inr ⟨j, by omega, h⟩)

/-- A plotted row toggles exactly the cells it covers. -/
theorem plotRow_pixel (d : Drawing) (c0 : Byte) (row : Fin 32) (b : Byte) (c : Fin 64) (r : Fin 32) :
    ((plotRow d c0 row b).1.pixel c r = true) ↔
      (d.1.pixel c r = true ↔ ¬(row = r ∧ ∃ j, j < 8 ∧ spriteColumn c0 j = c ∧ spriteBit b j = true)) :=
  plotBits_pixel d c0 row b 8 le_rfl c r

theorem plotRow_collision (d : Drawing) (c0 : Byte) (row : Fin 32) (b : Byte) :
    ((plotRow d c0 row b).2 = true) ↔
      (d.2 = true ∨ ∃ j, j < 8 ∧ d.1.pixel (spriteColumn c0 j) row = true ∧ spriteBit b j = true) :=
  plotBits_collision d c0 row b 8 le_rfl

end Sys2Proof.Machine
end

