-- ==== Sys2Proof/Laws/PerInstr.lean ====
section
/-! SUPPORT. Statements about every instruction as syntax, one lemma per constructor. The family WordLegal: the word the
encoder gives is none of the illegal words of 30_encoding.md R104. -/

namespace Sys2Proof.Laws

theorem formatA_op (base : Word) (nnn : Addr12) : formatA base nnn &&& 0xF000 = base &&& 0xF000 := by
  ext j hj
  interval_cases j <;> simp [formatA]

theorem formatB_op (base : Word) (x : Reg) (kk : Byte) : formatB base x kk &&& 0xF000 = base &&& 0xF000 := by
  ext j hj
  interval_cases j <;> simp [formatB, regBits]

theorem formatD_op (base : Word) (x y : Reg) (n : BitVec 4) : formatD base x y n &&& 0xF000 = base &&& 0xF000 := by
  ext j hj
  interval_cases j <;> simp [formatD, regBits]

/-- A word whose top nibble is that of a family with no illegal word is legal. -/
theorem legalWord_of_op {w op : Word} (h : w &&& 0xF000 = op)
    (hop : op ∉ [(0x0000 : Word), 0x5000, 0x8000, 0x9000, 0xE000, 0xF000]) : WellFormed.legalWord w = true := by
  subst h
  simp only [List.mem_cons, List.not_mem_nil, or_false, not_or] at hop
  obtain ⟨h0, h5, h8, h9, hE, hF⟩ := hop
  simp only [WellFormed.legalWord, WellFormed.illegalWord, WellFormed.badFamily0, WellFormed.badFamily5,
    WellFormed.badFamily8, WellFormed.badFamily9, WellFormed.badFamilyE, WellFormed.badFamilyF,
    beq_eq_false_iff_ne.mpr h0, beq_eq_false_iff_ne.mpr h5, beq_eq_false_iff_ne.mpr h8,
    beq_eq_false_iff_ne.mpr h9, beq_eq_false_iff_ne.mpr hE, beq_eq_false_iff_ne.mpr hF,
    Bool.false_and, Bool.or_false, Bool.not_false]

/-- The low nibble of a two-register word is its sub-opcode. -/
theorem formatR_low (base : Word) (x y : Reg) : formatR base x y &&& 0x000F = base &&& 0x000F := by
  ext j hj
  interval_cases j <;> simp [formatR, regBits]

theorem formatR_op (base : Word) (x y : Reg) : formatR base x y &&& 0xF000 = base &&& 0xF000 := by
  ext j hj
  interval_cases j <;> simp [formatR, regBits]

/-- A word of a family that checks its final nibble is legal when the nibble is one of the family's. -/
theorem legalWord_of_nibble {w op low : Word} (h : w &&& 0xF000 = op) (hl : w &&& 0x000F = low)
    (hop : op ∉ [(0x0000 : Word), 0xE000, 0xF000]) (h5 : op = 0x5000 → low = 0) (h9 : op = 0x9000 → low = 0)
    (h8 : op = 0x8000 → low ∉ [(0x8 : Word), 0x9, 0xA, 0xB, 0xC, 0xD, 0xF]) : WellFormed.legalWord w = true := by
  simp only [List.mem_cons, List.not_mem_nil, or_false, not_or] at hop
  simp only [WellFormed.legalWord, WellFormed.illegalWord, WellFormed.badFamily0, WellFormed.badFamily5,
    WellFormed.badFamily8, WellFormed.badFamily9, WellFormed.badFamilyE, WellFormed.badFamilyF, h, hl,
    beq_eq_false_iff_ne.mpr hop.1, beq_eq_false_iff_ne.mpr hop.2.1, beq_eq_false_iff_ne.mpr hop.2.2,
    Bool.false_and, Bool.false_or, Bool.or_false, Bool.not_eq_true', Bool.or_eq_false_iff, Bool.and_eq_false_imp,
    beq_iff_eq, bne_eq_false_iff_eq, List.contains_eq_mem, decide_eq_false_iff_not]
  exact ⟨⟨h5, h8⟩, h9⟩

namespace WordLegal

/-- The word of the instruction is legal. -/
def Statement (i : Instr) : Prop := WellFormed.legalWord (encode i) = true

theorem cls : Statement .cls := by unfold Statement; decide
theorem ret : Statement .ret := by unfold Statement; decide
theorem jp (nnn : Addr12) : Statement (.jp nnn) := legalWord_of_op (formatA_op _ nnn) (by decide)
theorem call (nnn : Addr12) : Statement (.call nnn) := legalWord_of_op (formatA_op _ nnn) (by decide)
theorem ldI (nnn : Addr12) : Statement (.ldI nnn) := legalWord_of_op (formatA_op _ nnn) (by decide)
theorem jpV0 (nnn : Addr12) : Statement (.jpV0 nnn) := legalWord_of_op (formatA_op _ nnn) (by decide)
theorem seImm (x : Reg) (kk : Byte) : Statement (.seImm x kk) := legalWord_of_op (formatB_op _ x kk) (by decide)
theorem sneImm (x : Reg) (kk : Byte) : Statement (.sneImm x kk) := legalWord_of_op (formatB_op _ x kk) (by decide)
theorem ldImm (x : Reg) (kk : Byte) : Statement (.ldImm x kk) := legalWord_of_op (formatB_op _ x kk) (by decide)
theorem addImm (x : Reg) (kk : Byte) : Statement (.addImm x kk) := legalWord_of_op (formatB_op _ x kk) (by decide)
theorem rnd (x : Reg) (kk : Byte) : Statement (.rnd x kk) := legalWord_of_op (formatB_op _ x kk) (by decide)
theorem drw (x y : Reg) (n : BitVec 4) : Statement (.drw x y n) := legalWord_of_op (formatD_op _ x y n) (by decide)
theorem seReg (x y : Reg) : Statement (.seReg x y) :=
  legalWord_of_nibble (formatR_op _ x y) (formatR_low _ x y) (by decide) (by decide) (by decide) (by decide)
theorem ldReg (x y : Reg) : Statement (.ldReg x y) :=
  legalWord_of_nibble (formatR_op _ x y) (formatR_low _ x y) (by decide) (by decide) (by decide) (by decide)
theorem or (x y : Reg) : Statement (.or x y) :=
  legalWord_of_nibble (formatR_op _ x y) (formatR_low _ x y) (by decide) (by decide) (by decide) (by decide)
theorem and (x y : Reg) : Statement (.and x y) :=
  legalWord_of_nibble (formatR_op _ x y) (formatR_low _ x y) (by decide) (by decide) (by decide) (by decide)
theorem xor (x y : Reg) : Statement (.xor x y) :=
  legalWord_of_nibble (formatR_op _ x y) (formatR_low _ x y) (by decide) (by decide) (by decide) (by decide)
theorem addReg (x y : Reg) : Statement (.addReg x y) :=
  legalWord_of_nibble (formatR_op _ x y) (formatR_low _ x y) (by decide) (by decide) (by decide) (by decide)
theorem sub (x y : Reg) : Statement (.sub x y) :=
  legalWord_of_nibble (formatR_op _ x y) (formatR_low _ x y) (by decide) (by decide) (by decide) (by decide)
theorem shr (x y : Reg) : Statement (.shr x y) :=
  legalWord_of_nibble (formatR_op _ x y) (formatR_low _ x y) (by decide) (by decide) (by decide) (by decide)
theorem subn (x y : Reg) : Statement (.subn x y) :=
  legalWord_of_nibble (formatR_op _ x y) (formatR_low _ x y) (by decide) (by decide) (by decide) (by decide)
theorem shl (x y : Reg) : Statement (.shl x y) :=
  legalWord_of_nibble (formatR_op _ x y) (formatR_low _ x y) (by decide) (by decide) (by decide) (by decide)
theorem sneReg (x y : Reg) : Statement (.sneReg x y) :=
  legalWord_of_nibble (formatR_op _ x y) (formatR_low _ x y) (by decide) (by decide) (by decide) (by decide)
theorem skp (x : Reg) : Statement (.skp x) := by
  have h : ∀ x : Reg, WellFormed.legalWord (encode (.skp x)) = true := by decide
  exact h x
theorem sknp (x : Reg) : Statement (.sknp x) := by
  have h : ∀ x : Reg, WellFormed.legalWord (encode (.sknp x)) = true := by decide
  exact h x
theorem ldVxDt (x : Reg) : Statement (.ldVxDt x) := by
  have h : ∀ x : Reg, WellFormed.legalWord (encode (.ldVxDt x)) = true := by decide
  exact h x
theorem ldVxK (x : Reg) : Statement (.ldVxK x) := by
  have h : ∀ x : Reg, WellFormed.legalWord (encode (.ldVxK x)) = true := by decide
  exact h x
theorem ldDtVx (x : Reg) : Statement (.ldDtVx x) := by
  have h : ∀ x : Reg, WellFormed.legalWord (encode (.ldDtVx x)) = true := by decide
  exact h x
theorem ldStVx (x : Reg) : Statement (.ldStVx x) := by
  have h : ∀ x : Reg, WellFormed.legalWord (encode (.ldStVx x)) = true := by decide
  exact h x
theorem addIVx (x : Reg) : Statement (.addIVx x) := by
  have h : ∀ x : Reg, WellFormed.legalWord (encode (.addIVx x)) = true := by decide
  exact h x
theorem ldFVx (x : Reg) : Statement (.ldFVx x) := by
  have h : ∀ x : Reg, WellFormed.legalWord (encode (.ldFVx x)) = true := by decide
  exact h x
theorem ldBVx (x : Reg) : Statement (.ldBVx x) := by
  have h : ∀ x : Reg, WellFormed.legalWord (encode (.ldBVx x)) = true := by decide
  exact h x
theorem ldMemVx (x : Reg) : Statement (.ldMemVx x) := by
  have h : ∀ x : Reg, WellFormed.legalWord (encode (.ldMemVx x)) = true := by decide
  exact h x
theorem ldVxMem (x : Reg) : Statement (.ldVxMem x) := by
  have h : ∀ x : Reg, WellFormed.legalWord (encode (.ldVxMem x)) = true := by decide
  exact h x

end WordLegal

end Sys2Proof.Laws
end

