-- ==== Sys2Proof/Laws/Terms.lean ====
section
/-! SUPPORT. The terms of Safety, written in numbers, and the machine's own operations agree; and the three ways a cycle
of a block that is not faulted goes, each as an equation of `step`. -/

namespace Sys2Proof.Safety

open Sys2Proof.Machine

theorem wordAtPc_eq_fetchWord (s : State) : wordAtPc s = s.fetchWord := by
  apply BitVec.eq_of_toNat_eq
  have h1 := (s.readByte s.pc.toNat).isLt
  have h2 := (s.readByte (s.pc.toNat + 1)).isLt
  rw [State.fetchWord, wordOfBytes_toNat, wordAtPc, BitVec.toNat_ofNat]
  omega

theorem countedDown_eq_countDown (t : Byte) : countedDown t = countDown t := by
  apply BitVec.eq_of_toNat_eq
  have := t.isLt
  rw [countDown_toNat, countedDown, BitVec.toNat_ofNat]
  omega

theorem returnSlot_eq_popSlot (s : State) : returnSlot s = s.popSlot :=
  Fin.ext (s.popSlot_val).symm

theorem faulted_eq_false {s : State} (h : s.fault = none) : s.faulted = false := by
  rw [State.faulted, h]; rfl

theorem faulted_eq_true {s : State} {f : Fault} (h : s.fault = some f) : s.faulted = true := by
  rw [State.faulted, h]; rfl

/-- The instruction is executed with RD cleared and LAST written. -/
theorem executing_eq (s : State) : executing s = s.clearRedraw.setLast s.fetchWord := by
  rw [executing, wordAtPc_eq_fetchWord]; rfl

@[simp] theorem executing_v (s : State) : (executing s).v = s.v := rfl
@[simp] theorem executing_i (s : State) : (executing s).i = s.i := rfl
@[simp] theorem executing_pc (s : State) : (executing s).pc = s.pc := rfl
@[simp] theorem executing_stack (s : State) : (executing s).stack = s.stack := rfl
@[simp] theorem executing_sp (s : State) : (executing s).sp = s.sp := rfl
@[simp] theorem executing_dt (s : State) : (executing s).dt = s.dt := rfl
@[simp] theorem executing_st (s : State) : (executing s).st = s.st := rfl
@[simp] theorem executing_keys (s : State) : (executing s).keys = s.keys := rfl
@[simp] theorem executing_fb (s : State) : (executing s).fb = s.fb := rfl
@[simp] theorem executing_rd (s : State) : (executing s).rd = false := rfl
@[simp] theorem executing_last (s : State) : (executing s).last = wordAtPc s := rfl
@[simp] theorem executing_fault (s : State) : (executing s).fault = s.fault := rfl
@[simp] theorem executing_mem (s : State) : (executing s).mem = s.mem := rfl
@[simp] theorem executing_font (s : State) : (executing s).font = s.font := rfl
@[simp] theorem executing_entropy (s : State) : (executing s).entropy = s.entropy := rfl
@[simp] theorem executing_draws (s : State) : (executing s).draws = s.draws := rfl
@[simp] theorem executing_getV (s : State) (x : Reg) : (executing s).getV x = s.getV x := rfl
@[simp] theorem executing_readByte (s : State) (a : Nat) : (executing s).readByte a = s.readByte a := rfl

/-- No fault of an instruction depends on RD or LAST. -/
theorem ownFault_executing (i : Instr) (s : State) : ownFault i (executing s) = ownFault i s := by
  cases i <;> rfl

/-- What a cycle does before it decodes. -/
theorem step_eq_decodeAndExecute {s : State} (h : s.fault = none) (hp : s.pc.toNat ≤ 0xFFE) :
    step s = decodeAndExecute (wordAtPc s) (executing s) := by
  have hf : s.clearRedraw.fetchFaults = false := by
    rw [State.fetchFaults, State.clearRedraw_pc]
    exact decide_eq_false (by omega)
  rw [wordAtPc_eq_fetchWord, executing_eq, step, cycle, faulted_eq_false h, fetchAndRun, hf]
  rfl

/-- A cycle whose word is an instruction, up to the end of the cycle. -/
theorem step_eq_finishCycle {s : State} {i : Instr} (h : s.fault = none) (hp : s.pc.toNat ≤ 0xFFE)
    (hd : decodeWord (wordAtPc s) = .ok i) : step s = finishCycle (exec i (executing s)) := by
  rw [step_eq_decodeAndExecute h hp, decodeAndExecute, hd]

end Sys2Proof.Safety
end

