-- ==== Sys2Proof/Tests/Slice0.lean ====
section
/-! SUPPORT. Tests of the model, with expected results from 95_test_vectors.md (V<n> is a row of its tables, L1.<n> an
example of its section 1) and from the instruction rules' own examples, and a witness for every statement of
Certificates/Slice0/Obligations.lean that has hypotheses. -/

namespace Sys2Proof.Tests

open Sys2Proof.Machine Sys2Proof.Safety

/-! ## Helpers -/

/-- The state a step leaves. -/
def after (s : State) : State :=
  match step s with
  | .next t => t
  | _ => s

/-- The state an instruction leaves. -/
def executed (i : Instr) (s : State) : State :=
  match exec i s with
  | .next t => t
  | _ => s

/-- A step, or an instruction, ended in a next state. -/
def ran (o : Host.Outcome State Fault Refusal) : Bool :=
  match o with
  | .next _ => true
  | _ => false

/-- The reset state with a word at 0x200. -/
def at200 (w : Word) : State := State.reset.placeWord w

/-- Registers set one after another. -/
def State.withRegs (s : State) (l : List (Reg × Byte)) : State := l.foldl (fun t p => t.setV p.1 p.2) s

/-- The reset state with registers, I, a word at 0x200 and bytes at I. -/
def start (w : Word) (regs : List (Reg × Byte) := []) (i : Word := 0x300) (bytes : List Byte := []) : State :=
  (State.withRegs (((at200 w).setI i).storeBytes i.toNat bytes) regs)

/-- A register after one step of such a state. -/
def regAfter (w : Word) (regs : List (Reg × Byte)) (x : Reg) : Byte := (after (start w regs)).getV x

/-! ## WellFormed refuses -/

theorem test_wf_refuses_family0 : WellFormed.legalWord 0x0123 = false := by decide
theorem test_wf_refuses_family5 : WellFormed.legalWord 0x5121 = false := by decide
theorem test_wf_refuses_family8 : WellFormed.legalWord 0x801F = false := by decide
theorem test_wf_refuses_family9 : WellFormed.legalWord 0x9121 = false := by decide
theorem test_wf_refuses_familyE : WellFormed.legalWord 0xE1A0 = false := by decide
theorem test_wf_refuses_familyF : WellFormed.legalWord 0xF130 = false := by decide
theorem test_wf_accepts_n0_draw : WellFormed.legalWord 0xD000 = true := by decide

/-- L1.9 -/
theorem test_wf_refuses_image_3585 : WellFormed.loadableImage (List.replicate 3585 0) = false := by
  simp only [WellFormed.loadableImage, List.length_replicate]; decide

/-- L1.9 -/
theorem test_wf_accepts_image_3584 : WellFormed.loadableImage (List.replicate 3584 0) = true := by
  simp only [WellFormed.loadableImage, List.length_replicate]; decide

/-! ## Decoding: one written-out word per constructor (30_encoding.md R101, R103, R107) -/

theorem test_decode_fixed : decodeWord 0x00E0 = .ok .cls ∧ decodeWord 0x00EE = .ok .ret := by decide

theorem test_decode_address : decodeWord 0x1ABC = .ok (.jp 0xABC) ∧ decodeWord 0x2123 = .ok (.call 0x123) ∧
    decodeWord 0xAFED = .ok (.ldI 0xFED) ∧ decodeWord 0xB801 = .ok (.jpV0 0x801) := by decide

theorem test_decode_byte : decodeWord 0x3A42 = .ok (.seImm 10 0x42) ∧ decodeWord 0x4581 = .ok (.sneImm 5 0x81) ∧
    decodeWord 0x6F18 = .ok (.ldImm 15 0x18) ∧ decodeWord 0x7280 = .ok (.addImm 2 0x80) ∧
    decodeWord 0xC30F = .ok (.rnd 3 0x0F) := by decide

theorem test_decode_registers : decodeWord 0x51E0 = .ok (.seReg 1 14) ∧ decodeWord 0x9E10 = .ok (.sneReg 14 1) ∧
    decodeWord 0x8120 = .ok (.ldReg 1 2) ∧ decodeWord 0x8341 = .ok (.or 3 4) ∧ decodeWord 0x8562 = .ok (.and 5 6) ∧
    decodeWord 0x8783 = .ok (.xor 7 8) := by decide

theorem test_decode_flag_registers : decodeWord 0x89A4 = .ok (.addReg 9 10) ∧ decodeWord 0x8BC5 = .ok (.sub 11 12) ∧
    decodeWord 0x8DE6 = .ok (.shr 13 14) ∧ decodeWord 0x8F07 = .ok (.subn 15 0) ∧
    decodeWord 0x812E = .ok (.shl 1 2) := by decide

theorem test_decode_draw : decodeWord 0xD12F = .ok (.drw 1 2 15) ∧ decodeWord 0xDF00 = .ok (.drw 15 0 0) := by decide

theorem test_decode_keys : decodeWord 0xE59E = .ok (.skp 5) ∧ decodeWord 0xEAA1 = .ok (.sknp 10) ∧
    decodeWord 0xFC0A = .ok (.ldVxK 12) := by decide

theorem test_decode_timers : decodeWord 0xF107 = .ok (.ldVxDt 1) ∧ decodeWord 0xF215 = .ok (.ldDtVx 2) ∧
    decodeWord 0xF418 = .ok (.ldStVx 4) := by decide

theorem test_decode_index : decodeWord 0xF81E = .ok (.addIVx 8) ∧ decodeWord 0xF329 = .ok (.ldFVx 3) ∧
    decodeWord 0xFB33 = .ok (.ldBVx 11) ∧ decodeWord 0xF755 = .ok (.ldMemVx 7) ∧
    decodeWord 0xFE65 = .ok (.ldVxMem 14) := by decide

/-- V11 to V16 -/
theorem test_decode_rejects_by_name : decodeWord 0x0000 = .error (.family0 0) ∧ decodeWord 0x0E00 = .error (.family0 0x0E00) ∧
    decodeWord 0x512F = .error (.family5 0x512F) ∧ decodeWord 0x801D = .error (.family8 0x801D) ∧
    decodeWord 0x9121 = .error (.family9 0x9121) ∧ decodeWord 0xE19F = .error (.familyE 0xE19F) ∧
    decodeWord 0xF175 = .error (.familyF 0xF175) := by decide

theorem test_decode_truncated : decodeBytes [0x12] = .error .truncated ∧
    decodeBytes [0x12, 0x34, 0x56] = .ok (.jp 0x234, [0x56]) := by decide

theorem test_decode_table_word : decodeTableWord 16 0x00E0 = some .cls ∧ decodeTableWord 16 0x0123 = none := by decide

/-! ## The cycle -/

/-- V1 -/
theorem test_fetch_at_top : (after { State.reset.setI 0 with pc := 0xFFE, mem := [(0xFFE, 0x12)] }).pc = 0x200 := by
  decide

/-- V2 -/
theorem test_fetch_past_top : (after (State.reset.jump 0xFFF)).fault = some (.fetchOutOfRange 0xFFF) := by decide

/-- V7, V9 -/
theorem test_timers_step : (after { at200 0x6000 with dt := 3, st := 1, rd := true }).dt = 2 ∧
    (after { at200 0x6000 with dt := 3, st := 1, rd := true }).st = 0 ∧
    (after { at200 0x6000 with dt := 3, st := 1, rd := true }).rd = false := by decide

/-- V10 -/
theorem test_illegal_word : (after { at200 0x8008 with dt := 4 }).fault = some (.illegalOpcode 0x8008 0x200) ∧
    (after { at200 0x8008 with dt := 4 }).dt = 4 ∧ (after { at200 0x8008 with dt := 4 }).last = 0x8008 := by
  decide

/-- V6 -/
theorem test_faulted_cycle : (after { at200 0x6000 with dt := 5, fault := some (.stackOverflow 2) }).dt = 5 := by
  decide

/-- V110, R396 -/
theorem test_no_program : (after State.reset).fault = some (.illegalOpcode 0 0x200) := by decide

/-! ## One instruction each -/

/-- R170 -/
theorem test_cls : (after { at200 0x00E0 with fb := State.reset.fb.setPixel 63 31 true }).fb.pixel 63 31 = false ∧
    (after (at200 0x00E0)).rd = true := by decide

/-- V22 -/
theorem test_drw_collision :
    let t := after { start 0xD011 [(0, 4), (1, 3)] 0x300 [0xC0] with fb := State.reset.fb.setPixel 5 3 true }
    t.fb.pixel 4 3 = true ∧ t.fb.pixel 5 3 = false ∧ t.getV VF = 1 := by decide

/-- V20 and V26: vertical wrap; VF is read as a coordinate before the flag is written -/
theorem test_drw_wrap :
    (after (start 0xD012 [(0, 0), (1, 31)] 0x300 [0x80, 0x80])).fb.pixel 0 0 = true ∧
    (after (start 0xD0F1 [(15, 10)] 0x300 [0x80])).fb.pixel 0 10 = true ∧
    (after (start 0xD0F1 [(15, 10)] 0x300 [0x80])).getV VF = 0 := by decide

/-- V24 -/
theorem test_drw_out_of_range :
    (after (start 0xD012 [] 0xFFF)).fault = some (.addressOutOfRange 0x1000 0x200) := by decide

/-- V32, V33 -/
theorem test_ret :
    (after { at200 0x00EE with sp := 2, stack := State.reset.stack.set 1 0x20A }).pc = 0x20A ∧
    (after { at200 0x00EE with sp := 2, stack := State.reset.stack.set 1 0x20A }).sp = 1 ∧
    (after { at200 0x00EE with stack := State.reset.stack.set 0 0x2A4 }).pc = 0x2A4 := by decide

/-- L1.3 -/
theorem test_jp : (after (at200 0x1ABC)).pc = 0xABC := by decide

/-- V29 -/
theorem test_call : (after { at200 0x2400 with sp := 15 }).stack.get 15 = 0x202 ∧
    (after { at200 0x2400 with sp := 15 }).sp = 16 ∧ (after { at200 0x2400 with sp := 15 }).pc = 0x400 := by
  decide

/-- V30 -/
theorem test_call_overflow : (after { at200 0x2400 with sp := 16 }).fault = some (.stackOverflow 0x200) := by
  decide

/-- V35 -/
theorem test_se_imm : (after (start 0x3342 [(3, 0x42)])).pc = 0x204 ∧ (after (start 0x3343 [(3, 0x42)])).pc = 0x202 := by
  decide

/-- V36 -/
theorem test_sne_imm : (after (start 0x4342 [(3, 0x42)])).pc = 0x202 ∧ (after (start 0x4343 [(3, 0x42)])).pc = 0x204 := by
  decide

/-- V37, V38 -/
theorem test_se_sne_reg :
    (after (start 0x5120 [(1, 7), (2, 7)])).pc = 0x204 ∧ (after (start 0x9120 [(1, 7), (2, 7)])).pc = 0x202 ∧
    (after (start 0x5120 [(1, 7), (2, 8)])).pc = 0x202 ∧ (after (start 0x9120 [(1, 7), (2, 8)])).pc = 0x204 := by
  decide

/-- V41, V42, V43 -/
theorem test_jp_v0 : (after (start 0xB300 [(0, 0x10)])).pc = 0x310 ∧ (after (start 0xBFFF [(0, 0xFF)])).pc = 0x10FE ∧
    (after (start 0xB500 [(5, 0x20)])).pc = 0x500 := by decide

/-- V45 -/
theorem test_ld_imm : regAfter 0x6AFF [] 10 = 0xFF := by decide

/-- V46, V48 -/
theorem test_add_imm : regAfter 0x7005 [(0, 0xFE)] 0 = 0x03 ∧ regAfter 0x7005 [(0, 0xFE)] VF = 0 ∧
    regAfter 0x7FFF [(15, 1)] VF = 0 := by decide

/-- V49 -/
theorem test_ld_reg : regAfter 0x8010 [(0, 0x12), (1, 0x34)] 0 = 0x34 := by decide

/-- V50 -/
theorem test_or : regAfter 0x8011 [(0, 0xF0), (1, 0x0C), (15, 7)] 0 = 0xFC ∧
    regAfter 0x8011 [(0, 0xF0), (1, 0x0C), (15, 7)] VF = 7 := by decide

/-- V51 -/
theorem test_and : regAfter 0x8012 [(0, 0xF0), (1, 0x3C)] 0 = 0x30 := by decide

/-- V52 -/
theorem test_xor : regAfter 0x8013 [(0, 0xF0), (1, 0x3C)] 0 = 0xCC := by decide

/-- V54, V56 -/
theorem test_add_reg : regAfter 0x8014 [(0, 0xFF), (1, 1)] 0 = 0 ∧ regAfter 0x8014 [(0, 0xFF), (1, 1)] VF = 1 ∧
    regAfter 0x8014 [(0, 0x7F), (1, 0x80)] VF = 0 := by decide

/-- V58, V59 -/
theorem test_add_reg_flag_register : regAfter 0x8F14 [(15, 0x80), (1, 0x80)] VF = 1 ∧
    regAfter 0x80F4 [(0, 1), (15, 0xFF)] 0 = 0 := by decide

/-- V60, V62 -/
theorem test_sub : regAfter 0x8015 [(0, 5), (1, 7)] 0 = 0xFE ∧ regAfter 0x8015 [(0, 5), (1, 7)] VF = 0 ∧
    regAfter 0x8015 [(0, 0x42), (1, 0x42)] VF = 1 := by decide

/-- V65, V68 -/
theorem test_shr : regAfter 0x8206 [(2, 5)] 2 = 2 ∧ regAfter 0x8206 [(2, 5)] VF = 1 ∧ regAfter 0x8FF6 [(15, 3)] VF = 1 := by
  decide

/-- V69, V70 -/
theorem test_subn : regAfter 0x8017 [(0, 7), (1, 5)] 0 = 0xFE ∧ regAfter 0x8017 [(0, 7), (1, 5)] VF = 0 ∧
    regAfter 0x8017 [(0, 5), (1, 7)] 0 = 2 := by decide

/-- V75, V76 -/
theorem test_shl : regAfter 0x823E [(2, 0x81)] 2 = 2 ∧ regAfter 0x823E [(2, 0x81)] VF = 1 ∧
    regAfter 0x8FFE [(15, 0x80)] VF = 1 := by decide

/-- V77: the byte drawn is the one the environment supplies -/
theorem test_rnd : (after { at200 0xC30F with entropy := [0xA7, 0x11] }).getV 3 = 0x07 ∧
    (after { at200 0xC30F with entropy := [0xA7, 0x11] }).entropy = [0x11] := by decide

/-- V78: with nothing supplied the byte is free, and its mask 00 gives 00; a draw is still taken -/
theorem test_rnd_zero_mask : (after (at200 0xC300)).getV 3 = 0 ∧ (after (at200 0xC300)).draws = 1 :=
  ⟨by show Config.freeEntropy 0 &&& 0 = 0; simp, by decide⟩

/-- V80 -/
theorem test_ld_i : (after (at200 0xAFFF)).i = 0x0FFF := by decide

/-- V81, V83 -/
theorem test_add_i : (after (start 0xF01E [(0, 5)] 0x0FFE)).i = 0x1003 ∧
    (after (start 0xF01E [(0, 0x0F)] 0xFFF1)).fault = some (.indexOverflow 0x10000 0x200) := by decide

/-- V84, V85 -/
theorem test_ld_f : (after (start 0xF429 [(4, 0x0B)])).i = 0x037 ∧ (after (start 0xF429 [(4, 0x1A)])).i = 0x032 := by
  decide

/-- V87 -/
theorem test_ld_b : (after (start 0xF033 [(0, 0xFE)])).readByte 0x300 = 2 ∧
    (after (start 0xF033 [(0, 0xFE)])).readByte 0x301 = 5 ∧ (after (start 0xF033 [(0, 0xFE)])).readByte 0x302 = 4 := by
  decide

/-- V88 -/
theorem test_ld_b_out_of_range :
    (after (start 0xF033 [] 0xFFE)).fault = some (.addressOutOfRange 0x1000 0x200) := by decide

/-- V90 -/
theorem test_ld_mem : (after (start 0xF255 [(0, 1), (1, 2), (2, 3), (3, 4)] 0x400)).readByte 0x402 = 3 ∧
    (after (start 0xF255 [(0, 1), (1, 2), (2, 3), (3, 4)] 0x400)).readByte 0x403 = 0 ∧
    (after (start 0xF255 [(0, 1), (1, 2), (2, 3), (3, 4)] 0x400)).i = 0x400 := by decide

/-- V97: the word stored over the next instruction is the one fetched next -/
theorem test_ld_mem_self_modifying :
    (after (after (start 0xF155 [(0, 0x12), (1, 0x34)] 0x202))).pc = 0x234 := by decide

/-- V94, V95 -/
theorem test_ld_vx_mem : (after (start 0xF265 [] 0x400 [1, 2, 3])).getV 2 = 3 ∧
    (after (start 0xF265 [(3, 9)] 0x400 [1, 2, 3, 4])).getV 3 = 9 ∧
    (after (start 0xFF65 [] 0)).getV 15 = 0xF0 := by decide

/-- V98, V99, V100 -/
theorem test_skp_sknp :
    (after ((start 0xE59E [(5, 10)]).setKey 10 true)).pc = 0x204 ∧
    (after ((start 0xE5A1 [(5, 10)]).setKey 10 true)).pc = 0x202 ∧
    (after (start 0xE59E [(5, 10)])).pc = 0x202 ∧ (after (start 0xE5A1 [(5, 10)])).pc = 0x204 ∧
    (after (start 0xE59E [(5, 16)])).fault = some (.keyIndexOutOfRange 16 0x200) := by decide

/-- V101, V102 -/
theorem test_wait_for_key : (after { at200 0xF30A with dt := 3 }).pc = 0x200 ∧
    (after { at200 0xF30A with dt := 3 }).dt = 2 ∧
    (after (((at200 0xF30A).setKey 9 true).setKey 7 true)).getV 3 = 7 := by decide

/-- V104 -/
theorem test_ld_vx_dt : (after { at200 0xF207 with dt := 9 }).getV 2 = 9 ∧ (after { at200 0xF207 with dt := 9 }).dt = 8 := by
  decide

/-- V105, V106 -/
theorem test_ld_dt : (after (start 0xF015 [(0, 5)])).dt = 4 ∧ (after (start 0xF015 [(0, 0)])).dt = 0 := by decide

/-- V107, V108 -/
theorem test_ld_st : (after (start 0xF018 [(0, 1)])).toneActive = false ∧
    (after (start 0xF018 [(0, 3)])).st = 2 ∧ (after (start 0xF018 [(0, 3)])).toneActive = true := by decide

/-! ## The host -/

/-- V112 and 60_exceptions.md R331 -/
theorem test_load_too_large : (State.reset.loadProgram (List.replicate 3585 1)).2 = .programTooLarge := by
  simp only [State.loadProgram, WellFormed.loadableImage, List.length_replicate]; decide

theorem test_load : (State.reset.loadProgram [0x12, 0x34]).1.readByte 0x201 = 0x34 := by decide

/-- 60_exceptions.md R372 -/
theorem test_fault_info : (Fault.indexOverflow 0x10000 0x200).info = 0x100000200 ∧
    (Fault.stackOverflow 0x200).info = 0x200 := by decide

/-- A second load, and a load after a cycle, are no moves of the host (R371). -/
theorem test_load_admitted_once : ((Bench.init Config.defaultFont).run [.loadProgram [0x12], .loadProgram [0x12]]).isNone ∧
    ((Bench.init Config.defaultFont).run [.cycle none, .loadProgram [0x12]]).isNone ∧
    ((Bench.init Config.defaultFont).run [.loadProgram [0x12], .new, .loadProgram [0x12]]).isSome := by decide

/-! ## Witnesses

One theorem per statement with hypotheses: concrete values that meet all the hypotheses of each clause together. `ran`
and `after` say that a step, or an instruction, ends in the next state named. -/

/-- What `ran` and `after` say of a step. -/
theorem step_eq_after {s : State} (h : ran (step s) = true) : step s = .next (after s) := by
  unfold after
  cases hs : step s <;> simp_all [ran]

/-- What `ran` and `executed` say of an instruction. -/
theorem exec_eq_executed {i : Instr} {s : State} (h : ran (exec i s) = true) : exec i s = .next (executed i s) := by
  unfold executed
  cases hs : exec i s <;> simp_all [ran]

/-- A state whose pc is the last one that can be fetched from, with a word there. -/
def atTop (w : Word) : State := (State.reset.jump 0xFFE).placeWord w

/-- A faulted state: the block after a cycle with no program. -/
def stopped : State := after State.reset

/-- A full call stack, and a call to run on it. -/
def fullStack : State := { at200 0x2400 with sp := 16 }

theorem witness_ResetGivesTheStatedValues : State.newWith Config.defaultFont = State.newWith Config.defaultFont ∧
    (79 : Nat) < 80 ∧ ((80 : Nat) ≤ 80 ∧ (80 : Nat) < 0x1000) ∧ ((80 : Nat) ≤ 0xFFF ∧ (0xFFF : Nat) < 0x1000) := by
  decide

theorem witness_RunningIntoZeroBytesFaults :
    let s := State.reset.jump 0xFFE
    s.fault = none ∧ s.pc.toNat ≤ 0xFFE ∧ s.readByte s.pc.toNat = 0 ∧ s.readByte (s.pc.toNat + 1) = 0 := by decide

theorem witness_LoadProgramIsAllOrNothing : (List.replicate 3584 (1 : Byte)).length ≤ 3584 ∧
    3583 < (List.replicate 3584 (1 : Byte)).length ∧ 0x200 + (List.replicate 3584 (1 : Byte)).length ≤ 0x1000 ∧
    3584 < (List.replicate 3585 (1 : Byte)).length := by simp only [List.length_replicate]; decide

/-- A load admitted, one after another load, one after a cycle, one on a faulted block; and a move of each kind. -/
theorem witness_LoadIsAdmittedOnceBeforeTheFirstCycle :
    ((Bench.init Config.defaultFont).loaded = false ∧ (Bench.init Config.defaultFont).started = false ∧
      (Bench.init Config.defaultFont).block.fault = none) ∧
    (Bench.mk State.reset true false).loaded = true ∧ (Bench.mk State.reset false true).started = true ∧
    (Bench.mk stopped false false).block.fault ≠ none ∧
    Bench.act ⟨State.reset, true, true⟩ .new = some ⟨State.reset, false, false⟩ ∧
    Bench.act ⟨State.reset, false, false⟩ (.loadProgram [0x12]) =
      some ⟨(State.reset.loadProgram [0x12]).1, true, false⟩ ∧
    Bench.act ⟨State.reset, true, false⟩ (.setKey 15 true) = some ⟨State.reset.setKey 15 true, true, false⟩ ∧
    Bench.act ⟨State.reset, true, false⟩ (.cycle none) = some ⟨stopped, true, true⟩ :=
  ⟨by decide, rfl, rfl, by decide, rfl, rfl, rfl, rfl⟩

theorem witness_SetKeyWritesOneKey : (Bench.init Config.defaultFont).block.fault = none ∧ (15 : Fin 16) ≠ 0 ∧
    (Bench.mk stopped false true).block.fault ≠ none := by decide

theorem witness_OnlyResetLeavesAFault : (Bench.mk stopped false true).block.fault ≠ none := by decide

theorem witness_DecodedWordEncodesBack : decodeWord 0x81F6 = .ok (.shr 1 15) := by decide

theorem witness_IllegalWordsAreExactlyTheListed : (atTop 0x5001).fault = none ∧ (atTop 0x5001).pc.toNat ≤ 0xFFE ∧
    ∃ e, decodeWord (wordAtPc (atTop 0x5001)) = .error e :=
  ⟨by decide, by decide, .family5 0x5001, by decide⟩

/-- A completed instruction at the last pc, and one that faults. -/
theorem witness_StepExecutesTheDecodedInstruction :
    ((atTop 0x6001).fault = none ∧ (atTop 0x6001).pc.toNat ≤ 0xFFE ∧
      decodeWord (wordAtPc (atTop 0x6001)) = .ok (.ldImm 0 1) ∧
      (executed (.ldImm 0 1) (executing (atTop 0x6001))).fault = none) ∧
    (fullStack.fault = none ∧ fullStack.pc.toNat ≤ 0xFFE ∧ decodeWord (wordAtPc fullStack) = .ok (.call 0x400) ∧
      (executed (.call 0x400) (executing fullStack)).fault ≠ none) := by decide

theorem witness_FetchReadsTheBigEndianWord : (State.reset.jump 0xFFF).fault = none ∧
    0xFFF < (State.reset.jump 0xFFF).pc.toNat + 1 ∧ (atTop 0x1234).fault = none ∧ (atTop 0x1234).pc.toNat + 1 ≤ 0xFFF := by
  decide

theorem witness_FaultedBlockChangesNothing : stopped.fault = some (.illegalOpcode 0 0x200) ∧
    Bench.act ⟨stopped, false, true⟩ (.cycle none) = some ⟨after stopped, false, true⟩ ∧ HostAction.cycle none ≠ .new :=
  ⟨by decide, by rfl, by decide⟩

theorem witness_ExecutionEndsInANextState : ownFault (.call 0x400) fullStack = some (.stackOverflow 0x200) ∧
    ownFault (.call 0x400) (at200 0x2400) = none := by decide

/-- A fault of fetch, of decode and of execution. -/
theorem witness_RaisedFaultIsPrecise :
    ((State.reset.jump 0xFFF).fault = none ∧ step (State.reset.jump 0xFFF) = .next (after (State.reset.jump 0xFFF)) ∧
      (after (State.reset.jump 0xFFF)).fault = some (.fetchOutOfRange 0xFFF)) ∧
    (State.reset.fault = none ∧ step State.reset = .next stopped ∧
      stopped.fault = some (.illegalOpcode 0 0x200)) ∧
    (fullStack.fault = none ∧ step fullStack = .next (after fullStack) ∧
      (after fullStack).fault = some (.stackOverflow 0x200)) :=
  ⟨⟨rfl, step_eq_after (by decide), by decide⟩, ⟨rfl, step_eq_after (by decide), by decide⟩,
    rfl, step_eq_after (by decide), by decide⟩

theorem witness_FirstFailedCheckIsReported :
    (step stopped = .next (after stopped) ∧ stopped.fault = some (.illegalOpcode 0 0x200)) ∧
    (step fullStack = .next (after fullStack) ∧ fullStack.fault = none) :=
  ⟨⟨step_eq_after (by decide), by decide⟩, step_eq_after (by decide), rfl⟩

/-- Fx15, Fx18, another instruction, and a faulting one. -/
theorem witness_TimersStepInEveryCompletedCycle :
    ((at200 0xF015).fault = none ∧ (at200 0xF015).pc.toNat ≤ 0xFFE ∧ decodeWord (wordAtPc (at200 0xF015)) = .ok (.ldDtVx 0) ∧
      step (at200 0xF015) = .next (after (at200 0xF015)) ∧ (after (at200 0xF015)).fault = none) ∧
    ((at200 0xF018).fault = none ∧ (at200 0xF018).pc.toNat ≤ 0xFFE ∧ decodeWord (wordAtPc (at200 0xF018)) = .ok (.ldStVx 0) ∧
      step (at200 0xF018) = .next (after (at200 0xF018)) ∧ (after (at200 0xF018)).fault = none) ∧
    ((atTop 0x6001).fault = none ∧ (atTop 0x6001).pc.toNat ≤ 0xFFE ∧ decodeWord (wordAtPc (atTop 0x6001)) = .ok (.ldImm 0 1) ∧
      step (atTop 0x6001) = .next (after (atTop 0x6001)) ∧ (after (atTop 0x6001)).fault = none) ∧
    (fullStack.fault = none ∧ fullStack.pc.toNat ≤ 0xFFE ∧ decodeWord (wordAtPc fullStack) = .ok (.call 0x400) ∧
      step fullStack = .next (after fullStack) ∧ (after fullStack).fault ≠ none) :=
  ⟨⟨rfl, by decide, by decide, step_eq_after (by decide), by decide⟩,
    ⟨rfl, by decide, by decide, step_eq_after (by decide), by decide⟩,
    ⟨rfl, by decide, by decide, step_eq_after (by decide), by decide⟩,
    rfl, by decide, by decide, step_eq_after (by decide), by decide⟩

theorem witness_RedrawFlagMarksACompletedDraw :
    ((at200 0x00E0).fault = none ∧ step (at200 0x00E0) = .next (after (at200 0x00E0)) ∧ (after (at200 0x00E0)).rd = true) ∧
    (State.reset.fault = none ∧ step State.reset = .next stopped ∧ stopped.rd = false) :=
  ⟨⟨rfl, step_eq_after (by decide), by decide⟩, rfl, step_eq_after (by decide), by decide⟩

theorem witness_EntropyIsDrawnOnlyByRnd :
    (step (atTop 0xC0FF) = .next (after (atTop 0xC0FF)) ∧ (atTop 0xC0FF).fault = none ∧ (atTop 0xC0FF).pc.toNat ≤ 0xFFE ∧
      ∃ x kk, decodeWord (wordAtPc (atTop 0xC0FF)) = .ok (.rnd x kk)) ∧
    (step stopped = .next (after stopped) ∧ ¬(stopped.fault = none ∧ stopped.pc.toNat ≤ 0xFFE ∧
      ∃ x kk, decodeWord (wordAtPc stopped) = .ok (.rnd x kk))) :=
  ⟨⟨step_eq_after rfl, rfl, by decide, 0, 0xFF, by decide⟩, step_eq_after (by decide),
    fun h => absurd h.1 (by decide)⟩

theorem witness_StepLeavesKeysAndFont : step (at200 0xF30A) = .next (after (at200 0xF30A)) := step_eq_after (by decide)

theorem witness_NextPcFollowsTheTable :
    (exec (.jpV0 0xFFF) State.reset = .next (executed (.jpV0 0xFFF) State.reset) ∧
      ownFault (.jpV0 0xFFF) State.reset = none) ∧
    (exec (.call 0x400) fullStack = .next (executed (.call 0x400) fullStack) ∧ ownFault (.call 0x400) fullStack ≠ none) :=
  ⟨⟨exec_eq_executed (by decide), by decide⟩, exec_eq_executed (by decide), by decide⟩

/-- Fx65 leaves the register above its range, 8xy6 does not read its y, and 6xkk and Dxyn write a register they do not
read. -/
theorem witness_RegisterAccessFollowsTheTable :
    (exec (.ldVxMem 14) State.reset = .next (executed (.ldVxMem 14) State.reset) ∧ ¬writes (.ldVxMem 14) 15) ∧
    ¬reads (.shr 1 15) 15 ∧ (writes (.ldImm 0 5) 0 ∧ ¬reads (.ldImm 0 5) 0) ∧
    (writes (.drw 0 1 1) VF ∧ ¬reads (.drw 0 1 1) VF) :=
  ⟨⟨exec_eq_executed (by decide), by simp only [writes]; decide⟩, by simp only [reads]; decide,
    ⟨rfl, fun h => h⟩, rfl, by simp only [reads]; decide⟩

theorem witness_FlagsAreZeroOrOne :
    (exec (.shl 15 0) State.reset = .next (executed (.shl 15 0) State.reset) ∧ writesFlag (.shl 15 0) ∧
      ownFault (.shl 15 0) State.reset = none) ∧
    (exec (.ldVxMem 14) State.reset = .next (executed (.ldVxMem 14) State.reset) ∧ ¬writesFlag (.ldVxMem 14) ∧
      ¬writes (.ldVxMem 14) VF) :=
  ⟨⟨exec_eq_executed (by decide), trivial, rfl⟩, exec_eq_executed (by decide), fun h => h,
    by simp only [writes]; decide⟩

/-- A jump writes none of the special elements; a return writes SP but not the slots. -/
theorem witness_SpecialStateIsWrittenByItsInstructions :
    (exec (.jp 0x300) State.reset = .next (executed (.jp 0x300) State.reset) ∧
      (∀ nnn x, (Instr.jp 0x300) ≠ .ldI nnn ∧ (Instr.jp 0x300) ≠ .ldFVx x ∧ (Instr.jp 0x300) ≠ .addIVx x) ∧
      (∀ nnn, (Instr.jp 0x300) ≠ .call nnn ∧ (Instr.jp 0x300) ≠ .ret) ∧
      (∀ x, (Instr.jp 0x300) ≠ .ldDtVx x) ∧ (∀ x, (Instr.jp 0x300) ≠ .ldStVx x) ∧
      (∀ x y n, (Instr.jp 0x300) ≠ .cls ∧ (Instr.jp 0x300) ≠ .drw x y n)) ∧
    (exec .ret State.reset = .next (executed .ret State.reset) ∧ ∀ nnn, Instr.ret ≠ .call nnn) := by
  refine ⟨⟨exec_eq_executed (by decide), ?_, ?_, ?_, ?_, ?_⟩, exec_eq_executed (by decide), ?_⟩ <;> simp

theorem witness_MemoryChangesOnlyWhereStored :
    (exec (.ldBVx 0) (State.reset.setI 0xFFD) = .next (executed (.ldBVx 0) (State.reset.setI 0xFFD)) ∧
      0xFFC < (State.reset.setI 0xFFD).i.toNat ∧
      (State.reset.setI 0xFFD).i.toNat + storedCount (.ldBVx 0) ≤ 0x1000) ∧
    (exec (.ldBVx 0) (State.reset.setI 0xFFE) = .next (executed (.ldBVx 0) (State.reset.setI 0xFFE)) ∧
      ownFault (.ldBVx 0) (State.reset.setI 0xFFE) ≠ none) :=
  ⟨⟨exec_eq_executed (by decide), by decide, by decide⟩, exec_eq_executed (by decide), by decide⟩

/-- The last sprite byte at 0xFFF, one byte past it, and no byte; a covered cell that is set and one that is not covered. -/
theorem witness_DrwTogglesTheCoveredCells :
    (State.reset.setI 0xFF1).i.toNat + (15 : BitVec 4).toNat - 1 ≤ 0xFFF ∧
    (0 < (2 : BitVec 4).toNat ∧ 0xFFF < (State.reset.setI 0xFFF).i.toNat + (2 : BitVec 4).toNat - 1) ∧
    (0 : BitVec 4).toNat = 0 ∧
    (let s := (start 0xD011 [] 0x300 [0x80]).present (State.reset.fb.setPixel 0 0 true)
     covered 0 1 1 s 0 0 ∧ s.fb.pixel 0 0 = true) ∧
    ¬covered 0 1 0 State.reset 0 0 ∧ (0 : Reg) ≠ VF :=
  ⟨by decide, by decide, by decide, ⟨⟨0, 0, by decide⟩, by decide⟩,
    fun ⟨_, _, h, _⟩ => absurd h (Nat.not_lt_zero _), by decide⟩

theorem witness_WriteEnablesDriveTheFramebuffer :
    (step (at200 0x00E0) = .next (after (at200 0x00E0)) ∧ decodeWord (wordAtPc (at200 0x00E0)) = .ok .cls) ∧
    (let s := start 0xD011 [] 0x300 [0x80]
     step s = .next (after s) ∧ s.writeEnable 0 0 = true ∧ decodeWord (wordAtPc s) ≠ .ok .cls) ∧
    (step State.reset = .next stopped ∧ State.reset.writeEnable 0 0 = false) :=
  ⟨⟨step_eq_after (by decide), by decide⟩, ⟨step_eq_after (by decide), by decide, by decide⟩,
    step_eq_after (by decide), by decide⟩

theorem witness_RetPopsTheStack : 0 < State.sp (after (at200 0x2400)) ∧ State.reset.sp.val = 0 := by decide

theorem witness_CallPushesTheReturnAddress : (State.sp { at200 0x2400 with sp := 15 }).val < 16 ∧
    fullStack.sp.val = 16 := by decide

theorem witness_CallThenRetResumesAfterTheCall :
    let s := { at200 0x2400 with sp := 15 }
    s.sp.val < 16 ∧ exec (.call 0x400) s = .next (executed (.call 0x400) s) ∧ (0 : Fin 16).val ≠ s.sp.val :=
  ⟨by decide, exec_eq_executed (by decide), by decide⟩

/-- The register premises of the arithmetic, load, random, key and timer results. -/
theorem witness_register_premises : (0 : Reg) ≠ VF ∧ (1 : Reg) ≠ 0 ∧ (1 : Reg) ≠ VF ∧ (7 : Nat) < 8 := by decide

theorem witness_RndMasksOneDraw : (State.entropy { State.reset with entropy := [0xA7] } = 0xA7 :: []) ∧
    (0x07 : Byte) &&& ~~~(0x0F : Byte) = 0 ∧ (1 : Reg) ≠ 0 := by decide

theorem witness_IndexAddOrOverflow :
    (start 0xF01E [(0, 0x0F)] 0xFFF0).i.toNat + ((start 0xF01E [(0, 0x0F)] 0xFFF0).getV 0).toNat ≤ 0xFFFF ∧
    0xFFFF < (start 0xF01E [(0, 0x0F)] 0xFFF1).i.toNat + ((start 0xF01E [(0, 0x0F)] 0xFFF1).getV 0).toNat := by decide

theorem witness_DecimalDigitsAreStored : (State.reset.setI 0xFFD).i.toNat + 2 ≤ 0xFFF ∧
    0xFFF < (State.reset.setI 0xFFE).i.toNat + 2 ∧ 0xFFC < (State.reset.setI 0xFFD).i.toNat ∧
    (State.reset.setI 0xFFD).i.toNat + 2 < 0x1000 := by decide

theorem witness_RegistersAreStored : (State.reset.setI 0xFF0).i.toNat + (15 : Reg).val ≤ 0xFFF ∧ (15 : Reg) ≤ 15 ∧
    (State.reset.setI 0xFF0).i.toNat + (15 : Reg).val < 0x1000 ∧
    0xFFF < (State.reset.setI 0xFF1).i.toNat + (15 : Reg).val := by decide

theorem witness_RegistersAreLoaded : (State.reset.setI 0xFF1).i.toNat + (14 : Reg).val ≤ 0xFFF ∧ (14 : Reg) ≤ 14 ∧
    (14 : Reg) < 15 ∧ 0xFFF < (State.reset.setI 0x1000).i.toNat + (0 : Reg).val := by decide

theorem witness_StoreThenLoadRestoresTheRegisters :
    let s := State.reset.setI 0xFF1
    s.i.toNat + (14 : Reg).val ≤ 0xFFF ∧ exec (.ldMemVx 14) s = .next (executed (.ldMemVx 14) s) ∧ (14 : Reg) < 15 :=
  ⟨by decide, exec_eq_executed (by decide), by decide⟩

theorem witness_StoredWordIsFetchedNext :
    let s := (State.reset.jump 0xFFC).setI 0xFFE
    1 ≤ (1 : Reg).val ∧ s.i = s.pc + 2 ∧ s.pc.toNat + 2 + (1 : Reg).val ≤ 0xFFF ∧
      exec (.ldMemVx 1) s = .next (executed (.ldMemVx 1) s) :=
  ⟨by decide, by decide, by decide, exec_eq_executed (by decide)⟩

theorem witness_CanonicalMemoryIsDeterminedByItsBytes :
    Memory.wf Config.defaultFont [(0x000, 0), (0xFFF, 1)] = true ∧
    (∀ a, Memory.read Config.defaultFont [(0x000, 0), (0xFFF, 1)] a =
      Memory.read Config.defaultFont [(0x000, 0), (0xFFF, 1)] a) := ⟨by decide, fun _ => rfl⟩

theorem witness_KeySkipsTestTheNamedKey : ((start 0xE59E [(5, 15)]).getV 5).toNat = (15 : Fin 16).val ∧
    15 < ((start 0xE59E [(5, 16)]).getV 5).toNat := by decide

/-- Keys 7 and 15 pressed; none pressed; none pressed and the instruction fetched. -/
theorem witness_WaitForKeyTakesTheLeastKey :
    (let s := (State.reset.setKey 15 true).setKey 7 true
     s.key 7 = true ∧ ∀ j, j < (7 : Fin 16) → s.key j = false) ∧
    (State.key ((State.reset.setKey 15 true)) 15 = true ∧
      ∀ j, j < (15 : Fin 16) → State.key (State.reset.setKey 15 true) j = false) ∧
    ((∀ k, State.key (atTop 0xF30A) k = false) ∧ (atTop 0xF30A).fault = none ∧ (atTop 0xF30A).pc.toNat ≤ 0xFFE ∧
      decodeWord (wordAtPc (atTop 0xF30A)) = .ok (.ldVxK 3)) := by decide

/-- A sound timer set to 3 at 0x200 and a load at 0x202. -/
def soundProgram : State := start 0xF018 [(0, 3)] 0x202 [0x61, 0x00]

theorem witness_completedCycles : step soundProgram = .next (after soundProgram) ∧
    completedCycles (fun i => ∀ k, i ≠ .ldStVx k) 1 (after soundProgram) (after (after soundProgram)) ∧
    completedCycles (fun i => ∀ k, i ≠ .ldDtVx k) 1 (after soundProgram) (after (after soundProgram)) :=
  ⟨step_eq_after (by decide),
    ⟨_, .ldImm 1 0, by decide, by decide, by simp, step_eq_after (by decide), by decide, rfl⟩,
    ⟨_, .ldImm 1 0, by decide, by decide, by simp, step_eq_after (by decide), by decide, rfl⟩⟩

theorem witness_TimerInstructionsMoveTheTimers :
    ((atTop 0xFF07).fault = none ∧ (atTop 0xFF07).pc.toNat ≤ 0xFFE ∧
      decodeWord (wordAtPc (atTop 0xFF07)) = .ok (.ldVxDt 15)) ∧
    ((atTop 0xFF15).fault = none ∧ (atTop 0xFF15).pc.toNat ≤ 0xFFE ∧
      decodeWord (wordAtPc (atTop 0xFF15)) = .ok (.ldDtVx 15)) ∧
    ((atTop 0xFF18).fault = none ∧ (atTop 0xFF18).pc.toNat ≤ 0xFFE ∧
      decodeWord (wordAtPc (atTop 0xFF18)) = .ok (.ldStVx 15)) := by decide

/-- A state with a word listed in memory and a call on the stack, and the step from it. -/
theorem witness_StepKeepsTheInvariant :
    let s := after (at200 0x2400)
    Inv s ∧ step s = .next (after s) :=
  ⟨⟨by decide, by decide, by decide, fun f h => absurd h (by revert f; decide)⟩, step_eq_after (by decide)⟩

/-- A faulted state that meets the invariant. -/
theorem witness_Inv_faulted : Inv stopped :=
  ⟨by decide, by decide, by decide, fun f h => by
    have h' : some (Fault.illegalOpcode 0 0x200) = some f := h
    cases h'; decide⟩

/-- A block that meets the invariant with the depth of the stack 1, and a move of each kind from it or its like. -/
theorem witness_HostMovesKeepTheInvariant :
    let s := after (at200 0x2400)
    Inv s ∧
    Bench.act ⟨s, false, false⟩ .new = some ⟨s.renew, false, false⟩ ∧
    Bench.act ⟨s, false, false⟩ (.loadProgram [0x12]) = some ⟨(s.loadProgram [0x12]).1, true, false⟩ ∧
    Bench.act ⟨s, false, false⟩ (.setKey 0 true) = some ⟨s.setKey 0 true, false, false⟩ ∧
    Bench.act ⟨s, false, false⟩ (.cycle none) = some ⟨after s, false, true⟩ :=
  ⟨witness_StepKeepsTheInvariant.1, rfl, rfl, rfl, rfl⟩

/-- A load, a key press and two cycles. -/
theorem witness_EveryReachableStateMeetsTheInvariant :
    ∃ s, Reachable s :=
  ⟨_, Config.defaultFont, [.loadProgram [0x00, 0xE0], .cycle none, .setKey 3 true, .cycle (some 7)], _, rfl, rfl⟩

theorem witness_PlacedWordIsExecutedNext : (State.reset.jump 0xFFE).pc.toNat ≤ 0xFFE ∧
    decodeTableWord 16 0x00E0 = some .cls ∧ (0x1000 : Nat) ≠ (State.reset.jump 0xFFE).pc.toNat ∧
    (0x1000 : Nat) ≠ (State.reset.jump 0xFFE).pc.toNat + 1 := by decide

end Sys2Proof.Tests
end

section
/-! PROOFS. What one instruction can do to the state, said once: `Effect s i t` lists the forms of the state t that an
instruction i leaves. The frames and the invariant of 10_state.md are read off it. -/

namespace Sys2Proof.Safety

open Sys2Proof.Machine

/-! ## The registers an instruction leaves -/

/-- The registers `v` are those of `s` outside the "writes" entry of the instruction (10_state.md R33). -/
def KeepsUnwritten (i : Instr) (s : State) (v : Vector Byte 16) : Prop :=
  ∀ k, ¬writes i k → v.get k = s.getV k

theorem keepsUnwritten_self (i : Instr) (s : State) : KeepsUnwritten i s s.v := fun _ _ => rfl

theorem keepsUnwritten_setV {i : Instr} {s : State} {x : Reg} (hx : writes i x) (b : Byte) :
    KeepsUnwritten i s (s.setV x b).v :=
  fun _ hk => s.getV_setV_ne b (ne_of_apply_ne (writes i) fun e => hk (e ▸ hx))

theorem keepsUnwritten_setVFlag {i : Instr} {s : State} {x : Reg} (hx : writes i x) (hf : writes i VF) (b : Byte)
    (f : Bool) : KeepsUnwritten i s (s.setVFlag x b f).v :=
  fun k hk => (keepsUnwritten_setV (s := s.setV x b) hf _ k hk).trans (keepsUnwritten_setV hx b k hk)

theorem keepsUnwritten_loadRegs (s : State) (a : Nat) (x : Reg) :
    KeepsUnwritten (.ldVxMem x) s (s.loadRegs a (regsUpTo x)).v :=
  fun k hk => s.getV_loadRegs_not_mem _ a fun hm => hk ((mem_regsUpTo x k).mp hm)

/-! ## The forms of the state an instruction leaves -/

/-- `Effect s i t`: the instruction i, executed in s, may leave t. The cases are told apart by the elements they write;
the bounds on jump targets and stores are those of 10_state.md R36 and 20_memory.md R73. -/
inductive Effect (s : State) : Instr → State → Prop where
  /-- a fault raised by the instruction itself -/
  | fault {i f} : f.pc = s.pc → Effect s i (s.latchFault f)
  /-- Fx0A with no key pressed -/
  | wait {x} : Effect s (.ldVxK x) s
  /-- registers and the next pc alone; `c` is the condition of a skip -/
  | registers {i v} (c : Bool) : KeepsUnwritten i s v → Effect s i ({ s with v := v }.skip c)
  | random {x kk v} : KeepsUnwritten (.rnd x kk) s v → Effect s (.rnd x kk) { s.consumeEntropy with v := v }.advance
  | jump {i target} : target.toNat ≤ 0x10FE → Effect s i (s.jump target)
  | call {nnn} (h : s.sp.val < 16) : Effect s (.call nnn)
      { s with stack := s.stack.set s.sp.val (s.pc + 2), sp := ⟨s.sp.val + 1, by omega⟩, pc := zext16 nnn }
  | ret : Effect s .ret s.popPc
  | index {i w} : (∃ nnn x, i = .ldI nnn ∨ i = .ldFVx x ∨ i = .addIVx x) → Effect s i (s.setI w).advance
  | delay {x b} : Effect s (.ldDtVx x) (s.setDt b).advance
  | sound {x b} : Effect s (.ldStVx x) (s.setSt b).advance
  | display {i v fb} : (∃ x y n, i = .cls ∨ i = .drw x y n) → KeepsUnwritten i s v →
      Effect s i ({ s with v := v }.present fb).advance
  | store {i l} : s.i.toNat + l.length ≤ Config.memSize → Effect s i (s.storeBytes s.i.toNat l).advance

/-- The low twelve bits are a target within the bound of 10_state.md R36. -/
theorem zext16_addr_le (nnn : Addr12) : (zext16 nnn).toNat ≤ 0x10FE := by
  have := nnn.isLt
  rw [BitVec.toNat_setWidth]
  omega

theorem offsetTarget_le (v0 : Byte) (nnn : Addr12) : (offsetTarget v0 nnn).toNat ≤ 0x10FE := by
  have h1 := v0.isLt
  have h2 := nnn.isLt
  rw [offsetTarget_toNat]
  omega

/-- A skip to the next instruction is an advance, so every instruction that writes registers alone has this form. -/
theorem Effect.advance {s : State} {i : Instr} {v : Vector Byte 16} (h : KeepsUnwritten i s v) :
    Effect s i { s with v := v }.advance :=
  .registers false h

theorem Effect.setV {s : State} {i : Instr} {x : Reg} {b : Byte} (hx : writes i x) :
    Effect s i (s.setV x b).advance :=
  .advance (keepsUnwritten_setV hx b)

theorem Effect.setVFlag {s : State} {i : Instr} {x : Reg} {b : Byte} {f : Bool} (hx : writes i x) (hf : writes i VF) :
    Effect s i (s.setVFlag x b f).advance :=
  .advance (keepsUnwritten_setVFlag hx hf b f)

theorem Effect.skip {s : State} {i : Instr} (c : Bool) : Effect s i (s.skip c) := .registers c (keepsUnwritten_self i s)

theorem execCall_effect (nnn : Addr12) (s : State) : ∃ t, execCall nnn s = .next t ∧ Effect s (.call nnn) t := by
  unfold execCall
  split
  · next u hu =>
    obtain ⟨hsp, rfl⟩ := State.push_eq_some hu
    exact ⟨_, rfl, .call hsp⟩
  · exact ⟨_, rfl, .fault rfl⟩

theorem execDrw_effect (x y : Reg) (n : BitVec 4) (s : State) :
    ∃ t, execDrw x y n s = .next t ∧ Effect s (.drw x y n) t := by
  unfold execDrw
  split
  · exact ⟨_, rfl, .fault rfl⟩
  · exact ⟨_, rfl, .display ⟨x, y, n, .inr rfl⟩ (keepsUnwritten_setV (i := .drw x y n) rfl _)⟩

theorem execAddIVx_effect (x : Reg) (s : State) : ∃ t, execAddIVx x s = .next t ∧ Effect s (.addIVx x) t := by
  simp only [execAddIVx]
  split
  · exact ⟨_, rfl, .fault rfl⟩
  · exact ⟨_, rfl, .index ⟨0, x, .inr (.inr rfl)⟩⟩

/-- A store that passes its range check; of no bytes it writes nothing. -/
theorem Effect.storeBytes {s : State} {i : Instr} {l : List Byte} (h : ¬outOfRange s.i l.length = true) :
    Effect s i (s.storeBytes s.i.toNat l).advance := by
  rw [Bool.not_eq_true, outOfRange_eq_false] at h
  rcases h with h | h
  · rw [List.length_eq_zero_iff.mp h]
    exact .advance (keepsUnwritten_self i s)
  · exact .store h

theorem execLdBVx_effect (x : Reg) (s : State) : ∃ t, execLdBVx x s = .next t ∧ Effect s (.ldBVx x) t := by
  unfold execLdBVx
  split
  · exact ⟨_, rfl, .fault rfl⟩
  · next h => exact ⟨_, rfl, .storeBytes h⟩

theorem execLdMemVx_effect (x : Reg) (s : State) : ∃ t, execLdMemVx x s = .next t ∧ Effect s (.ldMemVx x) t := by
  unfold execLdMemVx
  split
  · exact ⟨_, rfl, .fault rfl⟩
  · next h => exact ⟨_, rfl, .storeBytes (by simpa using h)⟩

theorem execLdVxMem_effect (x : Reg) (s : State) : ∃ t, execLdVxMem x s = .next t ∧ Effect s (.ldVxMem x) t := by
  unfold execLdVxMem
  split
  · exact ⟨_, rfl, .fault rfl⟩
  · rw [State.loadRegs_frame]
    exact ⟨_, rfl, .advance (keepsUnwritten_loadRegs s _ x)⟩

theorem execSkp_effect (x : Reg) (s : State) : ∃ t, execSkp x s = .next t ∧ Effect s (.skp x) t := by
  unfold execSkp
  split
  · exact ⟨_, rfl, .skip _⟩
  · exact ⟨_, rfl, .fault rfl⟩

theorem execSknp_effect (x : Reg) (s : State) : ∃ t, execSknp x s = .next t ∧ Effect s (.sknp x) t := by
  unfold execSknp
  split
  · exact ⟨_, rfl, .skip _⟩
  · exact ⟨_, rfl, .fault rfl⟩

theorem execLdVxK_effect (x : Reg) (s : State) : ∃ t, execLdVxK x s = .next t ∧ Effect s (.ldVxK x) t := by
  unfold execLdVxK
  split
  · exact ⟨_, rfl, .setV rfl⟩
  · exact ⟨_, rfl, .wait⟩

/-- Every instruction in every state ends in a next state of one of the forms. -/
theorem exec_effect (i : Instr) (s : State) : ∃ t, exec i s = .next t ∧ Effect s i t := by
  cases i with
  | cls => exact ⟨_, rfl, .display ⟨0, 0, 0, .inl rfl⟩ (keepsUnwritten_self _ s)⟩
  | ret => exact ⟨_, rfl, .ret⟩
  | jp nnn => exact ⟨_, rfl, .jump (zext16_addr_le nnn)⟩
  | jpV0 nnn => exact ⟨_, rfl, .jump (offsetTarget_le _ nnn)⟩
  | call nnn => exact execCall_effect nnn s
  | seImm | sneImm | seReg | sneReg => exact ⟨_, rfl, .skip _⟩
  | skp x => exact execSkp_effect x s
  | sknp x => exact execSknp_effect x s
  | ldImm | addImm | ldReg | or | and | xor | ldVxDt => exact ⟨_, rfl, .setV rfl⟩
  | addReg | sub | subn | shr | shl => exact ⟨_, rfl, .setVFlag (Or.inl rfl) (Or.inr rfl)⟩
  | rnd x kk => exact ⟨_, rfl, .random (keepsUnwritten_setV (i := .rnd x kk) rfl _)⟩
  | drw x y n => exact execDrw_effect x y n s
  | ldI nnn => exact ⟨_, rfl, .index ⟨nnn, 0, .inl rfl⟩⟩
  | ldFVx x => exact ⟨_, rfl, .index ⟨0, x, .inr (.inl rfl)⟩⟩
  | addIVx x => exact execAddIVx_effect x s
  | ldVxK x => exact execLdVxK_effect x s
  | ldDtVx x => exact ⟨_, rfl, .delay⟩
  | ldStVx x => exact ⟨_, rfl, .sound⟩
  | ldBVx x => exact execLdBVx_effect x s
  | ldMemVx x => exact execLdMemVx_effect x s
  | ldVxMem x => exact execLdVxMem_effect x s

/-- What an instruction has done has one of the forms. -/
theorem effect_of_exec {i : Instr} {s t : State} (h : exec i s = .next t) : Effect s i t := by
  obtain ⟨u, hu, he⟩ := exec_effect i s
  exact Host.Outcome.next.inj (hu.symm.trans h) ▸ he

/-! ## What each form leaves as it was -/

section
variable {s t : State} {i : Instr}

theorem Effect.keys_eq (h : Effect s i t) : t.keys = s.keys := by cases h <;> rfl

theorem Effect.font_eq (h : Effect s i t) : t.font = s.font := by cases h <;> rfl

theorem Effect.last_eq (h : Effect s i t) : t.last = s.last := by cases h <;> rfl

theorem Effect.i_eq (h : Effect s i t) (hi : ∀ nnn x, i ≠ .ldI nnn ∧ i ≠ .ldFVx x ∧ i ≠ .addIVx x) : t.i = s.i := by
  cases h with
  | index hw =>
    obtain ⟨nnn, x, hw⟩ := hw
    have := hi nnn x
    tauto
  | _ => rfl

theorem Effect.stack_eq (h : Effect s i t) (hi : ∀ nnn, i ≠ .call nnn) : t.stack = s.stack := by
  cases h with
  | call hsp => exact absurd rfl (hi _)
  | _ => rfl

theorem Effect.sp_eq (h : Effect s i t) (hi : ∀ nnn, i ≠ .call nnn ∧ i ≠ .ret) : t.sp = s.sp := by
  cases h with
  | call hsp => exact absurd rfl (hi _).1
  | ret => exact absurd rfl (hi 0).2
  | _ => rfl

theorem Effect.dt_eq (h : Effect s i t) (hi : ∀ x, i ≠ .ldDtVx x) : t.dt = s.dt := by
  cases h with
  | delay => exact absurd rfl (hi _)
  | _ => rfl

theorem Effect.st_eq (h : Effect s i t) (hi : ∀ x, i ≠ .ldStVx x) : t.st = s.st := by
  cases h with
  | sound => exact absurd rfl (hi _)
  | _ => rfl

theorem Effect.fb_eq (h : Effect s i t) (hi : ∀ x y n, i ≠ .cls ∧ i ≠ .drw x y n) : t.fb = s.fb := by
  cases h with
  | display hw =>
    obtain ⟨x, y, n, hw⟩ := hw
    have := hi x y n
    tauto
  | _ => rfl

theorem Effect.getV_eq (h : Effect s i t) {k : Reg} (hk : ¬writes i k) : t.getV k = s.getV k := by
  cases h with
  | registers _ hv => exact hv k hk
  | random hv => exact hv k hk
  | display _ hv => exact hv k hk
  | _ => rfl

end

/-- Settles O25: each element is written by the forms of its own instructions alone. -/
theorem specialStateIsWrittenByItsInstructions : Obligations.SpecialStateIsWrittenByItsInstructions := by
  intro i s t h
  have he := effect_of_exec h
  exact ⟨he.i_eq, he.stack_eq, he.sp_eq, he.dt_eq, he.st_eq, he.fb_eq, he.last_eq⟩

/-- Settles O21: the four ways a step goes on (`step_cases`), none of which writes the keys or FONT. -/
theorem stepLeavesKeysAndFont : Obligations.StepLeavesKeysAndFont := by
  intro s t h
  rcases step_cases h with ⟨-, rfl⟩ | ⟨-, -, rfl⟩ | ⟨-, -, -, rfl⟩ | ⟨-, -, i, u, -, hu, hend⟩
  · exact ⟨rfl, rfl⟩
  · exact ⟨rfl, rfl⟩
  · exact ⟨rfl, rfl⟩
  · have he := effect_of_exec hu
    obtain ⟨-, rfl⟩ | ⟨-, rfl⟩ := hend
    · exact ⟨he.keys_eq, he.font_eq⟩
    · exact ⟨he.keys_eq, he.font_eq⟩

/-! ## Flags (10_state.md R32) -/

theorem flagByte_eq_zero_or_one (f : Bool) : flagByte f = 0 ∨ flagByte f = 1 := by
  cases f
  · exact .inl rfl
  · exact .inr rfl

theorem getV_setVFlag_VF (s : State) (x : Reg) (b : Byte) (f : Bool) : (s.setVFlag x b f).getV VF = flagByte f := by
  rw [State.getV_setVFlag, if_pos rfl]

/-- A Dxyn that raises no fault has passed its range check. -/
theorem outOfRange_of_ownFault_drw {x y : Reg} {n : BitVec 4} {s : State} (h : ownFault (.drw x y n) s = none) :
    ¬outOfRange s.i n.toNat = true := by
  rw [outOfRange_eq_true]
  intro hout
  simp [ownFault, hout] at h

/-- An instruction that writes a flag and raises no fault leaves VF holding it. -/
theorem exec_flag {i : Instr} {s t : State} (h : exec i s = .next t) (hw : writesFlag i) (hf : ownFault i s = none) :
    ∃ f, t.getV VF = flagByte f := by
  cases i
  case addReg | sub | shr | subn | shl => exact Host.Outcome.next.inj h ▸ ⟨_, getV_setVFlag_VF _ _ _ _⟩
  case drw x y n =>
    rw [exec, execDrw, if_neg (outOfRange_of_ownFault_drw hf)] at h
    exact Host.Outcome.next.inj h ▸ ⟨_, s.getV_setV_same VF _⟩
  all_goals exact hw.elim

/-- Settles O24: a flag instruction leaves a flag byte in VF, and every instruction keeps the registers it does not
write. -/
theorem flagsAreZeroOrOne : Obligations.FlagsAreZeroOrOne := by
  intro i s t h
  refine ⟨fun hw hf => ?_, fun _ hk => (effect_of_exec h).getV_eq hk⟩
  obtain ⟨f, hv⟩ := exec_flag h hw hf
  rw [hv]
  exact flagByte_eq_zero_or_one f

end Sys2Proof.Safety
end

section
/-! PROOFS. The invariant of the block (10_state.md R36): a constructed block meets it, and every step and every admitted
move of the host keeps it. -/

namespace Sys2Proof.Safety

open Sys2Proof.Machine

/-! ## States that agree in what the invariant speaks of -/

/-- The invariant speaks of MEM, FONT, pc, the slots, FAULT and RD alone. -/
theorem Inv.congr {s t : State} (h : Inv s) (hmem : t.mem = s.mem) (hfont : t.font = s.font) (hpc : t.pc = s.pc)
    (hstack : t.stack = s.stack) (hfault : t.fault = s.fault) (hrd : t.rd = s.rd) : Inv t where
  memory_canonical := by rw [hmem, hfont]; exact h.memory_canonical
  pc_bound := by rw [hpc]; exact h.pc_bound
  stack_bound := by rw [hstack]; exact h.stack_bound
  fault_precise := by rw [hpc, hfault, hrd]; exact h.fault_precise

/-- While FAULT is not valid its precision is no condition. -/
theorem Inv.of_fault_none {s : State} (hfault : s.fault = none) (hmem : Memory.wf s.font s.mem = true)
    (hpc : s.pc.toNat ≤ 0x10FE) (hstack : ∀ k : Fin 16, (s.stack.get k).toNat ≤ 0x1000) : Inv s :=
  ⟨hmem, hpc, hstack, fun f hf => absurd (hfault.symm.trans hf) (Option.some_ne_none f).symm⟩

/-- A fault latched at the pc it carries is precise (60_exceptions.md R333). -/
theorem Inv.latchFault {s : State} (h : Inv s) {f : Fault} (hf : f.pc = s.pc) : Inv (s.latchFault f) where
  memory_canonical := h.memory_canonical
  pc_bound := h.pc_bound
  stack_bound := h.stack_bound
  fault_precise := by
    rintro g ⟨⟩
    exact ⟨hf, rfl⟩

theorem Inv.setLast {s : State} (h : Inv s) (w : Word) : Inv (s.setLast w) := h.congr rfl rfl rfl rfl rfl rfl

theorem Inv.timerStep {s : State} (h : Inv s) : Inv s.timerStep := h.congr rfl rfl rfl rfl rfl rfl

theorem Inv.withEntropy {s : State} (h : Inv s) (e : Option Byte) : Inv (s.withEntropy e) :=
  h.congr rfl rfl rfl rfl rfl rfl

theorem Inv.setKey {s : State} (h : Inv s) (k : Fin 16) (pressed : Bool) : Inv (s.setKey k pressed) :=
  h.congr rfl rfl rfl rfl rfl rfl

theorem Inv.clearRedraw {s : State} (h : Inv s) : Inv s.clearRedraw where
  memory_canonical := h.memory_canonical
  pc_bound := h.pc_bound
  stack_bound := h.stack_bound
  fault_precise f hf := ⟨(h.fault_precise f hf).1, rfl⟩

/-! ## A step -/

/-- A fetch that does not fault has its pc at most 0xFFE (40_cycle.md R144). -/
theorem pc_le_of_fetchFaults_eq_false {s : State} (h : s.fetchFaults = false) : s.pc.toNat ≤ 0xFFE := by
  have := of_decide_eq_false h
  omega

/-- The next pc in sequence or after a skip: from a fetched pc it does not wrap, and stays at most 0x1002. -/
theorem skip_pc_le {s : State} (hp : s.pc.toNat ≤ 0xFFE) (c : Bool) : (s.skip c).pc.toNat ≤ 0x10FE := by
  show (s.pc + if c then 4 else 2).toNat ≤ 0x10FE
  cases c
  · show (s.pc + 2).toNat ≤ 0x10FE
    bv_omega
  · show (s.pc + 4).toNat ≤ 0x10FE
    bv_omega

theorem advance_pc_le {s : State} (hp : s.pc.toNat ≤ 0xFFE) : s.advance.pc.toNat ≤ 0x10FE := skip_pc_le hp false

/-- Pushing a return address that is at most 0x1000 keeps the bound on the slots. -/
theorem stack_set_le {stack : Vector Word 16} (h : ∀ k : Fin 16, (stack.get k).toNat ≤ 0x1000) {n : Nat} (hn : n < 16)
    {w : Word} (hw : w.toNat ≤ 0x1000) (k : Fin 16) : ((stack.set n w).get k).toNat ≤ 0x1000 := by
  have hk := h k
  rw [Vector.get_eq_getElem] at hk ⊢
  rw [Vector.getElem_set]
  split
  · exact hw
  · exact hk

/-- An instruction executed at a pc that was fetched from keeps the invariant. -/
theorem Effect.inv {i : Instr} {s t : State} (he : Effect s i t) (h : Inv s) (hfault : s.fault = none)
    (hp : s.pc.toNat ≤ 0xFFE) : Inv t := by
  cases he with
  | fault hf => exact h.latchFault hf
  | wait => exact h
  | registers c _ => exact .of_fault_none hfault h.memory_canonical (skip_pc_le hp c) h.stack_bound
  | jump ht => exact .of_fault_none hfault h.memory_canonical ht h.stack_bound
  | call hsp =>
    refine .of_fault_none hfault h.memory_canonical (zext16_addr_le _) (stack_set_le h.stack_bound hsp ?_)
    bv_omega
  | ret =>
    exact .of_fault_none hfault h.memory_canonical ((h.stack_bound s.popSlot).trans (by decide)) h.stack_bound
  | store hl =>
    exact .of_fault_none hfault (Memory.writeBytes_wf _ h.memory_canonical hl) (advance_pc_le hp) h.stack_bound
  | _ => exact .of_fault_none hfault h.memory_canonical (advance_pc_le hp) h.stack_bound

/-- Settles O53: the four ways a step goes on (`step_cases`), and for an executed instruction its effect. -/
theorem stepKeepsTheInvariant : Obligations.StepKeepsTheInvariant := by
  intro s t h hstep
  rcases step_cases hstep with ⟨-, rfl⟩ | ⟨-, -, rfl⟩ | ⟨-, -, -, rfl⟩ | ⟨hf, hfetch, i, u, -, hu, hend⟩
  · exact h
  · exact h.latchFault rfl
  · exact (h.clearRedraw.setLast _).latchFault rfl
  · have hfault : s.fault = none := by simpa [State.faulted] using hf
    have hinv : Inv u := (effect_of_exec hu).inv (h.clearRedraw.setLast _) hfault (pc_le_of_fetchFaults_eq_false hfetch)
    obtain ⟨-, rfl⟩ | ⟨-, rfl⟩ := hend
    · exact hinv
    · exact hinv.timerStep

/-! ## The host's moves -/

theorem inv_newWith (font : Vector Byte 80) : Inv (State.newWith font) := by
  refine .of_fault_none rfl (Memory.wf_nil font) (show Config.pcReset.toNat ≤ 0x10FE by decide) fun k => ?_
  have hk : (State.newWith font).stack.get k = 0 := Vector.getElem_replicate k.isLt
  simp [hk]

/-- A reset in use leaves what construction with the same FONT leaves, apart from the entropy source. -/
theorem inv_renew (s : State) : Inv s.renew := (inv_newWith s.font).congr rfl rfl rfl rfl rfl rfl

/-- A load writes memory alone. -/
theorem loadProgram_frame (s : State) (bytes : List Byte) :
    (s.loadProgram bytes).1 = { s with mem := (s.loadProgram bytes).1.mem } := by
  by_cases hl : bytes.length ≤ Config.loadMax
  · rw [State.loadProgram_ok s hl]; rfl
  · rw [State.loadProgram_tooLarge s hl]

theorem Inv.loadProgram {s : State} (h : Inv s) (hfault : s.fault = none) (bytes : List Byte) :
    Inv (s.loadProgram bytes).1 := by
  have hmem := s.loadProgram_wf bytes h.memory_canonical
  rw [loadProgram_frame] at hmem ⊢
  exact .of_fault_none hfault hmem h.pc_bound h.stack_bound

/-- Every admitted move keeps the invariant, a cycle by the step lemma. -/
theorem act_keeps_inv {b b' : Bench} {a : HostAction} (h : Inv b.block) (hact : b.act a = some b') : Inv b'.block := by
  rcases Bench.act_cases hact with ⟨-, rfl⟩ | ⟨bytes, -, -, -, hfault, rfl⟩ | ⟨k, pressed, -, -, rfl⟩ |
    ⟨source, s, -, hstep, rfl⟩
  · exact inv_renew b.block
  · exact h.loadProgram hfault bytes
  · exact h.setKey k pressed
  · exact stepKeepsTheInvariant _ s (h.withEntropy source) hstep

/-- Settles O57: construction, then the moves one by one (`Bench.act_cases`). -/
theorem hostMovesKeepTheInvariant : Obligations.HostMovesKeepTheInvariant :=
  ⟨inv_newWith, fun _ _ _ => act_keeps_inv⟩

/-! ## Runs -/

/-- A run keeps what every admitted move keeps. -/
theorem run_keeps {P : Bench → Prop} (hact : ∀ b b' a, P b → b.act a = some b' → P b') {actions : List HostAction}
    {b b' : Bench} (h : P b) (hrun : b.run actions = some b') : P b' := by
  induction actions generalizing b with
  | nil =>
    obtain rfl := Option.some.inj hrun
    exact h
  | cons a rest ih =>
    rw [Bench.run] at hrun
    split at hrun
    · next c hc => exact ih (hact b c a h hc) hrun
    · cases hrun

/-- Settles O54: the invariant holds after construction and along every run. -/
theorem everyReachableStateMeetsTheInvariant : Obligations.EveryReachableStateMeetsTheInvariant := by
  rintro s ⟨font, actions, b, hrun, rfl⟩
  exact run_keeps (P := fun b => Inv b.block) (fun _ _ _ => act_keeps_inv) (inv_newWith font) hrun

end Sys2Proof.Safety
end

section
/-! PROOFS. What an instruction does does not depend on a register it does not read (10_state.md R33): two runs, from s
and from s with another value in that register, side by side. -/

namespace Sys2Proof.Safety

open Sys2Proof.Machine

/-! ## Two runs that end alike -/

/-- Runs from s and from `s.setV k b` that stand at t and t' differ at most in register k, and there only while both have
left it alone. -/
def Alike (s : State) (k : Reg) (b : Byte) (t t' : State) : Prop :=
  t' = t ∨ (t' = t.setV k b ∧ t.getV k = s.getV k)

/-- Both runs end in next states that are alike. -/
def OutcomesAlike (s : State) (k : Reg) (b : Byte) (o o' : Host.Outcome State Fault Refusal) : Prop :=
  ∃ t t', o = .next t ∧ o' = .next t' ∧ Alike s k b t t'

theorem setV_setV_same (s : State) (k : Reg) (b c : Byte) : (s.setV k b).setV k c = s.setV k c := by
  simp [State.setV]

theorem setV_setV_comm (s : State) {k x : Reg} (h : k ≠ x) (b c : Byte) :
    (s.setV k b).setV x c = (s.setV x c).setV k b := by
  have hv : k.val ≠ x.val := fun e => h (Fin.ext e)
  simp only [State.setV, Vector.set_comm _ _ hv]

section
variable {s t t' : State} {k : Reg} {b : Byte}

theorem alike_start (s : State) (k : Reg) (b : Byte) : Alike s k b s (s.setV k b) := .inr ⟨rfl, rfl⟩

/-- An update that neither reads nor writes registers. -/
theorem Alike.map (h : Alike s k b t t') (f : State → State)
    (hcomm : ∀ u, f (u.setV k b) = (f u).setV k b := by intro; rfl)
    (hv : ∀ u, (f u).getV k = u.getV k := by intro; rfl) : Alike s k b (f t) (f t') := by
  rcases h with rfl | ⟨rfl, hk⟩
  · exact .inl rfl
  · exact .inr ⟨hcomm t, (hv t).trans hk⟩

/-- A write of the same byte: to k it makes the runs equal, to another register it keeps them alike. -/
theorem Alike.setV (h : Alike s k b t t') (x : Reg) (c : Byte) : Alike s k b (t.setV x c) (t'.setV x c) := by
  rcases h with rfl | ⟨rfl, hk⟩
  · exact .inl rfl
  · by_cases hx : k = x
    · subst hx
      exact .inl (setV_setV_same t k b c)
    · exact .inr ⟨setV_setV_comm t hx b c, (t.getV_setV_ne c hx).trans hk⟩

theorem Alike.setVFlag (h : Alike s k b t t') (x : Reg) (c : Byte) (f : Bool) :
    Alike s k b (t.setVFlag x c f) (t'.setVFlag x c f) :=
  (h.setV x c).setV VF (flagByte f)

theorem Alike.advance (h : Alike s k b t t') : Alike s k b t.advance t'.advance := h.map State.advance

theorem Alike.readByte (h : Alike s k b t t') (a : Nat) : t'.readByte a = t.readByte a := by
  rcases h with rfl | ⟨rfl, -⟩ <;> rfl

theorem Alike.loadRegs (h : Alike s k b t t') (a : Nat) (l : List Reg) :
    Alike s k b (t.loadRegs a l) (t'.loadRegs a l) := by
  induction l generalizing t t' a with
  | nil => exact h
  | cons x l ih =>
    rw [State.loadRegs, State.loadRegs, h.readByte]
    exact ih (h.setV x _) (a + 1)

theorem Alike.next (h : Alike s k b t t') : OutcomesAlike s k b (.next t) (.next t') := ⟨t, t', rfl, rfl, h⟩

/-- Everything but register k ends the same, and so does k unless both runs left it alone. -/
theorem Alike.agree (h : Alike s k b t t') :
    t'.setV k 0 = t.setV k 0 ∧ (t'.getV k = t.getV k ∨ (t.getV k = s.getV k ∧ t'.getV k = b)) := by
  rcases h with rfl | ⟨rfl, hk⟩
  · exact ⟨rfl, .inl rfl⟩
  · exact ⟨setV_setV_same t k b 0, .inr ⟨hk, t.getV_setV_same k b⟩⟩

theorem outcomesAlike_skip (c : Bool) : OutcomesAlike s k b (.next (s.skip c)) (.next ((s.setV k b).skip c)) :=
  ((alike_start s k b).map (·.skip c)).next

theorem outcomesAlike_setV (x : Reg) (c : Byte) :
    OutcomesAlike s k b (.next (s.setV x c).advance) (.next ((s.setV k b).setV x c).advance) :=
  ((alike_start s k b).setV x c).advance.next

theorem outcomesAlike_setVFlag (x : Reg) (c : Byte) (f : Bool) :
    OutcomesAlike s k b (.next (s.setVFlag x c f).advance) (.next ((s.setV k b).setVFlag x c f).advance) :=
  ((alike_start s k b).setVFlag x c f).advance.next

/-- A fault taken in both runs. -/
theorem outcomesAlike_takeFault (f : Fault) : OutcomesAlike s k b (takeFault f s) (takeFault f (s.setV k b)) :=
  ((alike_start s k b).map (·.latchFault f)).next

/-- Both runs take the same branch of a check. -/
theorem OutcomesAlike.ite {c : Prop} [Decidable c] {o₁ o₂ o₁' o₂' : Host.Outcome State Fault Refusal}
    (h₁ : OutcomesAlike s k b o₁ o₁') (h₂ : OutcomesAlike s k b o₂ o₂') :
    OutcomesAlike s k b (if c then o₁ else o₂) (if c then o₁' else o₂') := by
  split
  · exact h₁
  · exact h₂

end

/-! ## Every instruction -/

section
variable {s : State} {k : Reg} {b : Byte}

/-- A push does not see the registers. -/
theorem push_setV (w : Word) : (s.setV k b).push w = (s.push w).map (·.setV k b) := by
  unfold State.push
  by_cases hsp : s.sp.val < 16
  · rw [dif_pos hsp, dif_pos (show (s.setV k b).sp.val < 16 from hsp)]
    rfl
  · rw [dif_neg hsp, dif_neg (show ¬(s.setV k b).sp.val < 16 from hsp)]
    rfl

theorem execCall_alike (nnn : Addr12) : OutcomesAlike s k b (execCall nnn s) (execCall nnn (s.setV k b)) := by
  simp only [execCall, State.setV_pc, push_setV]
  cases hpush : s.push (s.pc + 2) with
  | none => exact outcomesAlike_takeFault _
  | some t =>
    obtain ⟨hsp, rfl⟩ := State.push_eq_some hpush
    exact ((alike_start s k b).map fun u =>
      { u with stack := s.stack.set s.sp.val (s.pc + 2), sp := ⟨s.sp.val + 1, by omega⟩, pc := zext16 nnn }).next

theorem execDrw_alike {x y : Reg} (hx : (s.setV k b).getV x = s.getV x) (hy : (s.setV k b).getV y = s.getV y)
    (n : BitVec 4) : OutcomesAlike s k b (execDrw x y n s) (execDrw x y n (s.setV k b)) := by
  simp only [execDrw, hx, hy]
  exact .ite (outcomesAlike_takeFault _)
    (((alike_start s k b).setV VF _).map fun u => (u.present _).advance).next

theorem execSkp_alike {x : Reg} (hx : (s.setV k b).getV x = s.getV x) :
    OutcomesAlike s k b (execSkp x s) (execSkp x (s.setV k b)) := by
  simp only [execSkp, hx]
  split
  · exact outcomesAlike_skip _
  · exact outcomesAlike_takeFault _

theorem execSknp_alike {x : Reg} (hx : (s.setV k b).getV x = s.getV x) :
    OutcomesAlike s k b (execSknp x s) (execSknp x (s.setV k b)) := by
  simp only [execSknp, hx]
  split
  · exact outcomesAlike_skip _
  · exact outcomesAlike_takeFault _

theorem execLdVxK_alike (x : Reg) : OutcomesAlike s k b (execLdVxK x s) (execLdVxK x (s.setV k b)) := by
  have hkey : (s.setV k b).leastKey = s.leastKey := rfl
  simp only [execLdVxK, hkey]
  split
  · exact outcomesAlike_setV x _
  · exact (alike_start s k b).next

theorem execAddIVx_alike {x : Reg} (hx : (s.setV k b).getV x = s.getV x) :
    OutcomesAlike s k b (execAddIVx x s) (execAddIVx x (s.setV k b)) := by
  simp only [execAddIVx, hx]
  exact .ite (outcomesAlike_takeFault _) ((alike_start s k b).map fun u => (u.setI _).advance).next

theorem execLdBVx_alike {x : Reg} (hx : (s.setV k b).getV x = s.getV x) :
    OutcomesAlike s k b (execLdBVx x s) (execLdBVx x (s.setV k b)) := by
  simp only [execLdBVx, hx]
  exact .ite (outcomesAlike_takeFault _) ((alike_start s k b).map fun u => (u.storeBytes s.i.toNat _).advance).next

/-- The registers stored, V0..Vx, do not include k. -/
theorem execLdMemVx_alike {x : Reg} (hk : ¬k ≤ x) :
    OutcomesAlike s k b (execLdMemVx x s) (execLdMemVx x (s.setV k b)) := by
  have hregs : (regsUpTo x).map (s.setV k b).getV = (regsUpTo x).map s.getV :=
    List.map_congr_left fun j hj => s.getV_setV_ne b fun e => hk (e ▸ (mem_regsUpTo x j).mp hj)
  simp only [execLdMemVx, hregs]
  exact .ite (outcomesAlike_takeFault _) ((alike_start s k b).map fun u => (u.storeBytes s.i.toNat _).advance).next

theorem execLdVxMem_alike (x : Reg) : OutcomesAlike s k b (execLdVxMem x s) (execLdVxMem x (s.setV k b)) :=
  .ite (outcomesAlike_takeFault _) ((alike_start s k b).loadRegs s.i.toNat (regsUpTo x)).advance.next

end

/-- A register the instruction does not read has no influence on what it does. -/
theorem exec_alike {i : Instr} {k : Reg} (hk : ¬reads i k) (s : State) (b : Byte) :
    OutcomesAlike s k b (exec i s) (exec i (s.setV k b)) := by
  have read {x : Reg} (hx : k ≠ x) : (s.setV k b).getV x = s.getV x := s.getV_setV_ne b hx.symm
  have readFst {x y : Reg} (hxy : ¬(k = x ∨ k = y)) := read fun e => hxy (.inl e)
  have readSnd {x y : Reg} (hxy : ¬(k = x ∨ k = y)) := read fun e => hxy (.inr e)
  have start := alike_start s k b
  cases i with
  | cls => exact (start.map fun u => (u.present Framebuffer.blank).advance).next
  | ret => exact (start.map State.popPc).next
  | jp nnn => exact (start.map (·.jump (zext16 nnn))).next
  | jpV0 nnn =>
    simp only [exec, execJpV0, read hk]
    exact (start.map (·.jump _)).next
  | call nnn => exact execCall_alike nnn
  | seImm x kk => simp only [exec, execSeImm, read hk]; exact outcomesAlike_skip _
  | sneImm x kk => simp only [exec, execSneImm, read hk]; exact outcomesAlike_skip _
  | seReg x y => simp only [exec, execSeReg, readFst hk, readSnd hk]; exact outcomesAlike_skip _
  | sneReg x y => simp only [exec, execSneReg, readFst hk, readSnd hk]; exact outcomesAlike_skip _
  | skp x => exact execSkp_alike (read hk)
  | sknp x => exact execSknp_alike (read hk)
  | ldImm x kk => exact outcomesAlike_setV x kk
  | addImm x kk => simp only [exec, execAddImm, read hk]; exact outcomesAlike_setV x _
  | ldReg x y => simp only [exec, execLdReg, read hk]; exact outcomesAlike_setV x _
  | or x y => simp only [exec, execOr, readFst hk, readSnd hk]; exact outcomesAlike_setV x _
  | and x y => simp only [exec, execAnd, readFst hk, readSnd hk]; exact outcomesAlike_setV x _
  | xor x y => simp only [exec, execXor, readFst hk, readSnd hk]; exact outcomesAlike_setV x _
  | addReg x y => simp only [exec, execAddReg, readFst hk, readSnd hk]; exact outcomesAlike_setVFlag x _ _
  | sub x y => simp only [exec, execSub, readFst hk, readSnd hk]; exact outcomesAlike_setVFlag x _ _
  | subn x y => simp only [exec, execSubn, readFst hk, readSnd hk]; exact outcomesAlike_setVFlag x _ _
  | shr x y => simp only [exec, execShr, read hk]; exact outcomesAlike_setVFlag x _ _
  | shl x y => simp only [exec, execShl, read hk]; exact outcomesAlike_setVFlag x _ _
  | rnd x kk => exact ((start.map State.consumeEntropy).setV x _).advance.next
  | drw x y n => exact execDrw_alike (readFst hk) (readSnd hk) n
  | ldI nnn => exact (start.map fun u => (u.setI (zext16 nnn)).advance).next
  | ldFVx x =>
    simp only [exec, execLdFVx, read hk]
    exact (start.map fun u => (u.setI _).advance).next
  | addIVx x => exact execAddIVx_alike (read hk)
  | ldVxDt x => exact outcomesAlike_setV x s.dt
  | ldVxK x => exact execLdVxK_alike x
  | ldDtVx x =>
    simp only [exec, execLdDtVx, read hk]
    exact (start.map fun u => (u.setDt _).advance).next
  | ldStVx x =>
    simp only [exec, execLdStVx, read hk]
    exact (start.map fun u => (u.setSt _).advance).next
  | ldBVx x => exact execLdBVx_alike (read hk)
  | ldMemVx x => exact execLdMemVx_alike hk
  | ldVxMem x => exact execLdVxMem_alike x

/-- Settles O23: an effect keeps the registers the instruction does not write, and runs that differ in a register it does
not read end alike. -/
theorem registerAccessFollowsTheTable : Obligations.RegisterAccessFollowsTheTable := by
  intro i s k
  refine ⟨fun t h hk => (effect_of_exec h).getV_eq hk, fun hk b => ?_⟩
  obtain ⟨t, t', ht, ht', hend⟩ := exec_alike hk s b
  exact ⟨t, t', ht, ht', hend.agree⟩

end Sys2Proof.Safety
end

section
/-! PROOFS. Memory (20_memory.md): which bytes an instruction stores, what a store leaves to read, and that the bytes
determine a memory in canonical form. -/

namespace Sys2Proof.Safety

open Sys2Proof.Machine

/-! ## What an instruction does to memory (R71, R77, R79) -/

/-- From s to t memory is as it was, or the instruction has no fault of its own and has stored its bytes from I up. -/
def StoresItsBytes (i : Instr) (s t : State) : Prop :=
  t.mem = s.mem ∨
    ownFault i s = none ∧ ∃ l : List Byte, l.length = storedCount i ∧ t.mem = (s.storeBytes s.i.toNat l).mem

theorem execLdBVx_stores (x : Reg) (s : State) :
    ∃ t, execLdBVx x s = .next t ∧ StoresItsBytes (.ldBVx x) s t := by
  unfold execLdBVx
  split
  · exact ⟨_, rfl, .inl rfl⟩
  · next h =>
    rw [outOfRange_three] at h
    exact ⟨_, rfl, .inr ⟨if_neg h, _, decimalDigits_length _, rfl⟩⟩

theorem execLdMemVx_stores (x : Reg) (s : State) :
    ∃ t, execLdMemVx x s = .next t ∧ StoresItsBytes (.ldMemVx x) s t := by
  unfold execLdMemVx
  split
  · exact ⟨_, rfl, .inl rfl⟩
  · next h =>
    rw [outOfRange_succ] at h
    exact ⟨_, rfl, .inr ⟨if_neg h, _, by simp [storedCount], rfl⟩⟩

/-- Fx33 and Fx55 store their bytes; no other instruction writes memory, on any branch. -/
theorem exec_stores (i : Instr) (s : State) : ∃ t, exec i s = .next t ∧ StoresItsBytes i s t := by
  cases i with
  | ldBVx x => exact execLdBVx_stores x s
  | ldMemVx x => exact execLdMemVx_stores x s
  | call nnn =>
    simp only [exec, execCall]
    split
    · next u hu =>
      obtain ⟨hsp, rfl⟩ := State.push_eq_some hu
      exact ⟨_, rfl, .inl rfl⟩
    · exact ⟨_, rfl, .inl rfl⟩
  | ldVxMem x =>
    simp only [exec, execLdVxMem]
    split
    · exact ⟨_, rfl, .inl rfl⟩
    · rw [State.loadRegs_frame]
      exact ⟨_, rfl, .inl rfl⟩
  | drw | addIVx | skp | sknp | ldVxK =>
    simp only [exec, execDrw, execAddIVx, execSkp, execSknp, execLdVxK]
    split
    · exact ⟨_, rfl, .inl rfl⟩
    · exact ⟨_, rfl, .inl rfl⟩
  | _ => exact ⟨_, rfl, .inl rfl⟩

theorem storesItsBytes_of_exec {i : Instr} {s t : State} (h : exec i s = .next t) : StoresItsBytes i s t := by
  obtain ⟨u, hu, hs⟩ := exec_stores i s
  exact Host.Outcome.next.inj (hu.symm.trans h) ▸ hs

/-- A store leaves the bytes below and above it. -/
theorem readByte_storeBytes_outside (s : State) {a b : Nat} {l : List Byte} (h : b < a ∨ a + l.length ≤ b) :
    (s.storeBytes a l).readByte b = s.readByte b := by
  rw [State.readByte_storeBytes, dif_neg (by omega)]

/-- Settles O26: memory is as it was, or a fault-free instruction has stored its bytes, and FONT is kept. -/
theorem memoryChangesOnlyWhereStored : Obligations.MemoryChangesOnlyWhereStored := by
  intro i s t h
  have hfont := (effect_of_exec h).font_eq
  rcases storesItsBytes_of_exec h with hmem | ⟨hok, l, hl, hmem⟩
  · have hread := State.readByte_congr hmem hfont
    exact ⟨fun a _ => hread a, fun _ => hread⟩
  · refine ⟨fun a ha => ?_, fun hf => absurd hok hf⟩
    rw [State.readByte_congr hmem hfont, readByte_storeBytes_outside s (hl ▸ ha)]

/-! ## A word stored over the next instruction (R82) -/

/-- After V0..Vx are stored from an address up, the byte at offset k is V[k]. -/
theorem readByte_storeBytes_regsUpTo (s : State) (a : Nat) {x k : Reg} (h : k ≤ x) :
    (s.storeBytes a ((regsUpTo x).map s.getV)).readByte (a + k.val) = s.getV k := by
  have hk : ((regsUpTo x).map s.getV)[k.val]? = some (s.getV k) := by
    rw [List.getElem?_map, regsUpTo_get? x k h, Option.map_some]
  obtain ⟨hlen, hget⟩ := List.getElem?_eq_some_iff.mp hk
  rw [State.readByte_storeBytes, dif_pos (by omega)]
  simpa using hget

/-- Fx55 inside the address space. -/
theorem exec_ldMemVx_inRange {x : Reg} {s : State} (h : s.i.toNat + x.val ≤ 0xFFF) :
    exec (.ldMemVx x) s = .next (s.storeBytes s.i.toNat ((regsUpTo x).map s.getV)).advance := by
  rw [exec, execLdMemVx, if_neg (by rw [outOfRange_succ]; omega)]

theorem wordAtPc_toNat (s : State) :
    (wordAtPc s).toNat = 256 * (s.readByte s.pc.toNat).toNat + (s.readByte (s.pc.toNat + 1)).toNat := by
  rw [wordAtPc_eq_fetchWord, State.fetchWord, wordOfBytes_toNat]

/-- Settles O47: the next pc is I, where V0 and V1 have been stored. -/
theorem storedWordIsFetchedNext : Obligations.StoredWordIsFetchedNext := by
  intro x s t hx hi hrange h
  have hin : s.i.toNat + x.val ≤ 0xFFF := by rw [hi]; bv_omega
  obtain rfl := Host.Outcome.next.inj ((exec_ldMemVx_inRange hin).symm.trans h)
  have h0 := readByte_storeBytes_regsUpTo s s.i.toNat (Fin.zero_le x)
  have h1 := readByte_storeBytes_regsUpTo s s.i.toNat (k := 1) hx
  rw [wordAtPc_toNat, State.advance_pc, State.storeBytes_pc, ← hi, State.readByte_advance, State.readByte_advance]
  exact congrArg₂ (fun a b : Byte => 256 * a.toNat + b.toNat) h0 h1

/-! ## The canonical form (R70, R80) -/

/-- A memory in canonical form lists exactly the bytes that differ from their reset contents. -/
theorem mem_iff_read_of_wf {font : Vector Byte 80} {m : Memory} (h : Memory.wf font m = true) (p : Host.Cell) :
    p ∈ m ↔ Memory.read font m p.1 = p.2 ∧ p.2 ≠ Memory.unlisted font p.1 := by
  obtain ⟨a, v⟩ := p
  have hne : (a, v) ∈ m → v ≠ Memory.unlisted font a := fun hp => (((Memory.wf_iff font m).mp h).2 _ hp).2
  rw [← Memory.lookup_eq_some h] at hne ⊢
  rw [Memory.read]
  cases hlookup : Memory.lookup m a with
  | none => simp [eq_comm]
  | some w => simpa [hlookup] using hne

/-- Settles O48: the two lists have the same entries (`mem_iff_read_of_wf`) and both rise strictly. -/
theorem canonicalMemoryIsDeterminedByItsBytes : Obligations.CanonicalMemoryIsDeterminedByItsBytes := by
  intro font m m' h h' hread
  have hsorted {l : Memory} (hl : Memory.wf font l = true) : l.Pairwise (Prod.fst ⁻¹'o (· < ·)) :=
    ((Memory.wf_iff font l).mp hl).1
  refine (hsorted h).eq_of_mem_iff (hsorted h') fun p => ?_
  rw [mem_iff_read_of_wf h, mem_iff_read_of_wf h', hread]

end Sys2Proof.Safety
end

section
/-! PROOFS. The encoding (30_encoding.md R100 to R106): the decoder undoes the encoder, and the encoder the decoder. -/

namespace Sys2Proof.Safety

open Sys2Proof.Machine

/-! ## Formats with a sub-opcode in the base, as numbers (R101) -/

theorem maskOp_toNat (w : Word) : (w &&& 0xF000#16).toNat = w.toNat / 4096 * 4096 := by
  have h : w &&& 0xF000#16 = w >>> 12 <<< 12 := by
    ext j hj
    interval_cases j <;> simp
  have := w.isLt
  rw [h, BitVec.toNat_shiftLeft, BitVec.toNat_ushiftRight, Nat.shiftLeft_eq, Nat.shiftRight_eq_div_pow]
  omega

/-- A base with a sub-opcode in its low bits is its top nibble with the sub-opcode put in. -/
theorem eq_maskOp_or {k : Nat} {base : Word} {low : BitVec k} (hk : k ≤ 12) (h : base.toNat % 4096 = low.toNat) :
    base = (base &&& 0xF000#16) ||| zext16 low := by
  have hlow := low.isLt
  have hlt : low.toNat < 2 ^ 16 := hlow.trans_le (Nat.pow_le_pow_right (by decide) (by omega))
  have hdvd : 2 ^ k ∣ base.toNat / 4096 * 4096 := (Nat.pow_dvd_pow 2 hk).mul_left _
  apply BitVec.eq_of_toNat_eq
  rw [BitVec.toNat_or, maskOp_toNat, BitVec.toNat_setWidth, Nat.mod_eq_of_lt hlt, or_eq_add_of_lt hdvd hlow]
  omega

/-- Format R is format D with the sub-opcode as n. -/
theorem formatR_eq_formatD {base : Word} (x y : Reg) (h : base.toNat % 4096 < 16) :
    formatR base x y = formatD (base &&& 0xF000#16) x y (fieldN base) := by
  have hbase : base = (base &&& 0xF000#16) ||| zext16 (fieldN base) :=
    eq_maskOp_or (by decide) (by rw [fieldN_toNat]; omega)
  conv_lhs => rw [formatR, hbase]
  rw [formatD]
  ac_rfl

/-- Format X is format B with the sub-opcode as kk. -/
theorem formatX_eq_formatB {base : Word} (x : Reg) (h : base.toNat % 4096 < 256) :
    formatX base x = formatB (base &&& 0xF000#16) x (fieldKK base) := by
  have hbase : base = (base &&& 0xF000#16) ||| zext16 (fieldKK base) :=
    eq_maskOp_or (by decide) (by rw [fieldKK_toNat]; omega)
  conv_lhs => rw [formatX, hbase]
  rw [formatB]
  ac_rfl

theorem formatR_toNat (base : Word) (x y : Reg) (h : base.toNat % 4096 < 16) :
    (formatR base x y).toNat = base.toNat + 256 * x.val + 16 * y.val := by
  rw [formatR_eq_formatD x y h, formatD_toNat _ x y _ (by rw [maskOp_toNat]; omega), maskOp_toNat, fieldN_toNat]
  omega

theorem formatX_toNat (base : Word) (x : Reg) (h : base.toNat % 4096 < 256) :
    (formatX base x).toNat = base.toNat + 256 * x.val := by
  rw [formatX_eq_formatB x h, formatB_toNat _ x _ (by rw [maskOp_toNat]; omega), maskOp_toNat, fieldKK_toNat]
  omega

/-! ## The fields of an encoded word (R101) -/

theorem formatA_fields (base : Word) (nnn : Addr12) (h : base.toNat % 4096 = 0) :
    (fieldOp (formatA base nnn)).toNat = base.toNat / 4096 ∧ fieldNNN (formatA base nnn) = nnn := by
  have hw := formatA_toNat base nnn h
  have hn := nnn.isLt
  refine ⟨?_, BitVec.eq_of_toNat_eq ?_⟩
  · rw [fieldOp_toNat]; omega
  · rw [fieldNNN_toNat]; omega

theorem formatB_fields (base : Word) (x : Reg) (kk : Byte) (h : base.toNat % 4096 = 0) :
    (fieldOp (formatB base x kk)).toNat = base.toNat / 4096 ∧ fieldX (formatB base x kk) = x ∧
      fieldKK (formatB base x kk) = kk := by
  have hw := formatB_toNat base x kk h
  have hk := kk.isLt
  refine ⟨?_, Fin.ext ?_, BitVec.eq_of_toNat_eq ?_⟩
  · rw [fieldOp_toNat]; omega
  · rw [fieldX_val]; omega
  · rw [fieldKK_toNat]; omega

theorem formatD_fields (base : Word) (x y : Reg) (n : BitVec 4) (h : base.toNat % 4096 = 0) :
    (fieldOp (formatD base x y n)).toNat = base.toNat / 4096 ∧ fieldX (formatD base x y n) = x ∧
      fieldY (formatD base x y n) = y ∧ fieldN (formatD base x y n) = n := by
  have hw := formatD_toNat base x y n h
  have hn := n.isLt
  refine ⟨?_, Fin.ext ?_, Fin.ext ?_, BitVec.eq_of_toNat_eq ?_⟩
  · rw [fieldOp_toNat]; omega
  · rw [fieldX_val]; omega
  · rw [fieldY_val]; omega
  · rw [fieldN_toNat]; omega

theorem formatR_fields (base : Word) (x y : Reg) (h : base.toNat % 4096 < 16) :
    (fieldOp (formatR base x y)).toNat = base.toNat / 4096 ∧ fieldX (formatR base x y) = x ∧
      fieldY (formatR base x y) = y ∧ (fieldN (formatR base x y)).toNat = base.toNat % 16 := by
  have hw := formatR_toNat base x y h
  refine ⟨?_, Fin.ext ?_, Fin.ext ?_, ?_⟩
  · rw [fieldOp_toNat]; omega
  · rw [fieldX_val]; omega
  · rw [fieldY_val]; omega
  · rw [fieldN_toNat]; omega

theorem formatX_fields (base : Word) (x : Reg) (h : base.toNat % 4096 < 256) :
    (fieldOp (formatX base x)).toNat = base.toNat / 4096 ∧ fieldX (formatX base x) = x ∧
      (fieldKK (formatX base x)).toNat = base.toNat % 256 := by
  have hw := formatX_toNat base x h
  refine ⟨?_, Fin.ext ?_, ?_⟩
  · rw [fieldOp_toNat]; omega
  · rw [fieldX_val]; omega
  · rw [fieldKK_toNat]; omega

/-! ## Decoding an encoded instruction (R100, R103) -/

/-- The operands stand in the fields, and the base of the format has the bits the decoder dispatches on. -/
theorem decodeWord_encode (i : Instr) : decodeWord (encode i) = .ok i := by
  cases i with
  | cls | ret => rfl
  | jp nnn | call nnn | ldI nnn | jpV0 nnn => simp [encode, decodeWord, formatA_fields]
  | seImm x kk | sneImm x kk | ldImm x kk | addImm x kk | rnd x kk => simp [encode, decodeWord, formatB_fields]
  | drw x y n => simp [encode, decodeWord, formatD_fields]
  | seReg x y | sneReg x y => simp [encode, decodeWord, formatR_fields, ← BitVec.toNat_inj]
  | ldReg x y | or x y | and x y | xor x y | addReg x y | sub x y | shr x y | subn x y | shl x y =>
    simp [encode, decodeWord, decodeFamily8, formatR_fields]
  | skp x | sknp x => simp [encode, decodeWord, decodeFamilyE, formatX_fields]
  | ldVxDt x | ldVxK x | ldDtVx x | ldStVx x | addIVx x | ldFVx x | ldBVx x | ldMemVx x | ldVxMem x =>
    simp [encode, decodeWord, decodeFamilyF, formatX_fields]

/-- Settles O7: the word by `decodeWord_encode`; its two bytes are that word again. -/
theorem encodeThenDecodeIsIdentity : Obligations.EncodeThenDecodeIsIdentity := by
  refine fun i => ⟨decodeWord_encode i, fun rest => ?_⟩
  show decodeBytes (highByte (encode i) :: lowByte (encode i) :: rest) = _
  rw [decodeBytes, wordOfBytes_highByte_lowByte, decodeWord_encode]

/-! ## Encoding a decoded word (R103, R106)

A word is put together again from the fields its format reads: the top nibble and the sub-opcode are the base's. -/

section
variable {w base : Word} {op low : Nat}

theorem formatA_of_fields (hop : (fieldOp w).toNat = op) (hbase : base.toNat = 4096 * op) :
    formatA base (fieldNNN w) = w := by
  apply BitVec.eq_of_toNat_eq
  rw [formatA_toNat _ _ (by omega), fieldNNN_toNat]
  rw [fieldOp_toNat] at hop
  omega

theorem formatB_of_fields (hop : (fieldOp w).toNat = op) (hbase : base.toNat = 4096 * op) :
    formatB base (fieldX w) (fieldKK w) = w := by
  apply BitVec.eq_of_toNat_eq
  rw [formatB_toNat _ _ _ (by omega), fieldX_val, fieldKK_toNat]
  rw [fieldOp_toNat] at hop
  omega

theorem formatD_of_fields (hop : (fieldOp w).toNat = op) (hbase : base.toNat = 4096 * op) :
    formatD base (fieldX w) (fieldY w) (fieldN w) = w := by
  apply BitVec.eq_of_toNat_eq
  rw [formatD_toNat _ _ _ _ (by omega), fieldX_val, fieldY_val, fieldN_toNat]
  rw [fieldOp_toNat] at hop
  omega

theorem formatR_of_fields (hop : (fieldOp w).toNat = op) (hlow : (fieldN w).toNat = low)
    (hbase : base.toNat = 4096 * op + low) : formatR base (fieldX w) (fieldY w) = w := by
  have hlt := (fieldN w).isLt
  apply BitVec.eq_of_toNat_eq
  rw [formatR_toNat _ _ _ (by omega), fieldX_val, fieldY_val]
  rw [fieldOp_toNat] at hop
  rw [fieldN_toNat] at hlow
  omega

theorem formatX_of_fields (hop : (fieldOp w).toNat = op) (hlow : (fieldKK w).toNat = low)
    (hbase : base.toNat = 4096 * op + low) : formatX base (fieldX w) = w := by
  have hlt := (fieldKK w).isLt
  apply BitVec.eq_of_toNat_eq
  rw [formatX_toNat _ _ (by omega), fieldX_val]
  rw [fieldOp_toNat] at hop
  rw [fieldKK_toNat] at hlow
  omega

end

section
variable {w : Word} {i : Instr}

theorem encode_of_decodeFamily0 (h : decodeFamily0 w = .ok i) : encode i = w := by
  unfold decodeFamily0 at h
  split at h
  · next hw => cases h; exact hw.symm
  · split at h
    · next hw => cases h; exact hw.symm
    · cases h

theorem encode_of_decodeFamily8 (hop : (fieldOp w).toNat = 8) (h : decodeFamily8 w = .ok i) : encode i = w := by
  unfold decodeFamily8 at h
  split at h
  case h_10 => cases h
  all_goals
    next hlow =>
    cases h
    exact formatR_of_fields hop hlow rfl

theorem encode_of_decodeFamilyE (hop : (fieldOp w).toNat = 14) (h : decodeFamilyE w = .ok i) : encode i = w := by
  unfold decodeFamilyE at h
  split at h
  case h_3 => cases h
  all_goals
    next hlow =>
    cases h
    exact formatX_of_fields hop hlow rfl

theorem encode_of_decodeFamilyF (hop : (fieldOp w).toNat = 15) (h : decodeFamilyF w = .ok i) : encode i = w := by
  unfold decodeFamilyF at h
  split at h
  case h_10 => cases h
  all_goals
    next hlow =>
    cases h
    exact formatX_of_fields hop hlow rfl

/-- The rows 5xy0 and 9xy0, the only ones whose family has one row and checks the final nibble. -/
theorem encode_of_nibble_zero {base : Word} {op : Nat} {e : DecodeError} {j : Instr} (hop : (fieldOp w).toNat = op)
    (hbase : base.toNat = 4096 * op) (hj : encode j = formatR base (fieldX w) (fieldY w))
    (h : (if fieldN w = 0 then .ok j else .error e) = Except.ok i) : encode i = w := by
  split at h
  · next hn =>
    cases h
    exact hj.trans (formatR_of_fields hop (congrArg BitVec.toNat hn) hbase)
  · cases h

/-- Settles O8: in each row the decoder has read every field of the row's format. -/
theorem decodedWordEncodesBack : Obligations.DecodedWordEncodesBack := by
  intro w i h
  unfold decodeWord at h
  split at h
  case h_1 => exact encode_of_decodeFamily0 h
  case h_6 hop => exact encode_of_nibble_zero hop rfl rfl h
  case h_9 hop => exact encode_of_decodeFamily8 hop h
  case h_10 hop => exact encode_of_nibble_zero hop rfl rfl h
  case h_15 hop => exact encode_of_decodeFamilyE hop h
  case h_16 =>
    have hlt := (fieldOp w).isLt
    simp only [imp_false] at *
    exact encode_of_decodeFamilyF (by omega) h
  case h_2 hop | h_3 hop | h_11 hop | h_12 hop => cases h; exact formatA_of_fields hop rfl
  case h_4 hop | h_5 hop | h_7 hop | h_8 hop | h_13 hop => cases h; exact formatB_of_fields hop rfl
  case h_14 hop => cases h; exact formatD_of_fields hop rfl

end

end Sys2Proof.Safety
end

section
/-! PROOFS. The illegal words (30_encoding.md R104): the decoder and the masks of WellFormed leave out the listed words,
and a cycle that fetches one raises IllegalOpcode. -/

namespace Sys2Proof.Safety

open Sys2Proof.Machine

/-! ## The words that decode to nothing (R104) -/

/-- The list of 30_encoding.md R104. -/
def ListedIllegal (w : Word) : Prop :=
  (w.toNat < 0x1000 ∧ w ≠ 0x00E0 ∧ w ≠ 0x00EE) ∨
  (w.toNat / 0x1000 = 0x5 ∧ w.toNat % 16 ≠ 0) ∨
  (w.toNat / 0x1000 = 0x9 ∧ w.toNat % 16 ≠ 0) ∨
  (w.toNat / 0x1000 = 0x8 ∧ w.toNat % 16 ∈ [0x8, 0x9, 0xA, 0xB, 0xC, 0xD, 0xF]) ∨
  (w.toNat / 0x1000 = 0xE ∧ w.toNat % 256 ∉ [0x9E, 0xA1]) ∨
  (w.toNat / 0x1000 = 0xF ∧ w.toNat % 256 ∉ [0x07, 0x0A, 0x15, 0x18, 0x1E, 0x29, 0x33, 0x55, 0x65])

theorem decodeFamily0_error_iff (w : Word) : (∃ e, decodeFamily0 w = .error e) ↔ w ≠ 0x00E0 ∧ w ≠ 0x00EE := by
  unfold decodeFamily0
  split
  · next h => simp [h]
  · split
    · next h => simp [h]
    · next h h' => exact iff_of_true ⟨_, rfl⟩ ⟨h, h'⟩

theorem decodeFamily8_error_iff (w : Word) :
    (∃ e, decodeFamily8 w = .error e) ↔ w.toNat % 16 ∈ [0x8, 0x9, 0xA, 0xB, 0xC, 0xD, 0xF] := by
  have hlt := (fieldN w).isLt
  rw [← fieldN_toNat]
  unfold decodeFamily8
  split
  case h_10 =>
    refine iff_of_true ⟨_, rfl⟩ ?_
    simp only [imp_false, List.mem_cons, List.not_mem_nil, or_false] at *
    omega
  all_goals
    next h => simp [h]

theorem decodeFamilyE_error_iff (w : Word) : (∃ e, decodeFamilyE w = .error e) ↔ w.toNat % 256 ∉ [0x9E, 0xA1] := by
  rw [← fieldKK_toNat]
  unfold decodeFamilyE
  split
  case h_3 =>
    simp only [imp_false] at *
    simp [*]
  all_goals
    next h => simp [h]

theorem decodeFamilyF_error_iff (w : Word) : (∃ e, decodeFamilyF w = .error e) ↔
    w.toNat % 256 ∉ [0x07, 0x0A, 0x15, 0x18, 0x1E, 0x29, 0x33, 0x55, 0x65] := by
  rw [← fieldKK_toNat]
  unfold decodeFamilyF
  split
  case h_10 =>
    simp only [imp_false] at *
    simp [*]
  all_goals
    next h => simp [h]

theorem nibble_zero_error_iff (w : Word) (i : Instr) (f : DecodeError) :
    (∃ e, (if fieldN w = 0 then .ok i else .error f) = Except.error e) ↔ w.toNat % 16 ≠ 0 := by
  have hn : fieldN w = 0 ↔ w.toNat % 16 = 0 := by rw [← BitVec.toNat_inj, fieldN_toNat]; rfl
  rw [ne_eq, ← hn]
  split
  · next h => simp [h]
  · next h => exact iff_of_true ⟨_, rfl⟩ h

/-- Only the families that check further bits leave words out. -/
theorem decodeWord_error_iff (w : Word) : (∃ e, decodeWord w = .error e) ↔ ListedIllegal w := by
  have hop : (fieldOp w).toNat = w.toNat / 0x1000 := fieldOp_toNat w
  have hzero : w.toNat < 0x1000 ↔ w.toNat / 0x1000 = 0 := by omega
  rw [ListedIllegal, hzero, ← hop]
  unfold decodeWord
  split
  case h_1 h => simp [h, decodeFamily0_error_iff]
  case h_6 h | h_10 h => rw [nibble_zero_error_iff]; simp [h]
  case h_9 h => rw [decodeFamily8_error_iff]; simp [h]
  case h_15 h => rw [decodeFamilyE_error_iff]; simp [h]
  case h_16 =>
    have hlt := (fieldOp w).isLt
    simp only [imp_false] at *
    have h : (fieldOp w).toNat = 15 := by omega
    rw [decodeFamilyF_error_iff]; simp [h]
  all_goals
    next h => simp [h]

/-- Settles O9: the list by `decodeWord_error_iff`; the cycle takes its fault with RD cleared and LAST written. -/
theorem illegalWordsAreExactlyTheListed : Obligations.IllegalWordsAreExactlyTheListed := by
  refine ⟨decodeWord_error_iff, fun s hfault hpc ⟨e, he⟩ => ?_⟩
  rw [step_eq_decodeAndExecute hfault hpc, decodeAndExecute, he]
  rfl

/-! ## The list written with masks (WellFormed) -/

theorem maskN_toNat (w : Word) : (w &&& 0x000F#16).toNat = w.toNat % 16 :=
  Nat.and_two_pow_sub_one_eq_mod w.toNat 4

theorem maskKK_toNat (w : Word) : (w &&& 0x00FF#16).toNat = w.toNat % 256 :=
  Nat.and_two_pow_sub_one_eq_mod w.toNat 8

theorem maskOp_eq_iff {w c : Word} {op : Nat} (hc : c.toNat = 4096 * op) :
    w &&& 0xF000#16 = c ↔ w.toNat / 0x1000 = op := by
  rw [← BitVec.toNat_inj, maskOp_toNat]
  omega

theorem maskN_eq_iff (w c : Word) : w &&& 0x000F#16 = c ↔ w.toNat % 16 = c.toNat := by
  rw [← BitVec.toNat_inj, maskN_toNat]

theorem maskKK_eq_iff (w c : Word) : w &&& 0x00FF#16 = c ↔ w.toNat % 256 = c.toNat := by
  rw [← BitVec.toNat_inj, maskKK_toNat]

theorem badFamily0_iff (w : Word) :
    WellFormed.badFamily0 w = true ↔ w.toNat < 0x1000 ∧ w ≠ 0x00E0 ∧ w ≠ 0x00EE := by
  have hop : w.toNat < 0x1000 ↔ w.toNat / 0x1000 = 0 := by omega
  rw [hop, ← maskOp_eq_iff (c := 0) rfl]
  simp [WellFormed.badFamily0, and_assoc]

theorem badFamily5_iff (w : Word) :
    WellFormed.badFamily5 w = true ↔ w.toNat / 0x1000 = 0x5 ∧ w.toNat % 16 ≠ 0 := by
  rw [← maskOp_eq_iff (c := 0x5000) rfl]
  simp [WellFormed.badFamily5, maskN_eq_iff]

theorem badFamily9_iff (w : Word) :
    WellFormed.badFamily9 w = true ↔ w.toNat / 0x1000 = 0x9 ∧ w.toNat % 16 ≠ 0 := by
  rw [← maskOp_eq_iff (c := 0x9000) rfl]
  simp [WellFormed.badFamily9, maskN_eq_iff]

theorem badFamily8_iff (w : Word) : WellFormed.badFamily8 w = true ↔
    w.toNat / 0x1000 = 0x8 ∧ w.toNat % 16 ∈ [0x8, 0x9, 0xA, 0xB, 0xC, 0xD, 0xF] := by
  rw [← maskOp_eq_iff (c := 0x8000) rfl]
  simp [WellFormed.badFamily8, maskN_eq_iff]

theorem badFamilyE_iff (w : Word) : WellFormed.badFamilyE w = true ↔
    w.toNat / 0x1000 = 0xE ∧ w.toNat % 256 ∉ [0x9E, 0xA1] := by
  rw [← maskOp_eq_iff (c := 0xE000) rfl]
  simp [WellFormed.badFamilyE, maskKK_eq_iff]

theorem badFamilyF_iff (w : Word) : WellFormed.badFamilyF w = true ↔
    w.toNat / 0x1000 = 0xF ∧ w.toNat % 256 ∉ [0x07, 0x0A, 0x15, 0x18, 0x1E, 0x29, 0x33, 0x55, 0x65] := by
  rw [← maskOp_eq_iff (c := 0xF000) rfl]
  simp [WellFormed.badFamilyF, maskKK_eq_iff]

/-- The masks and the arithmetic give one list, up to the order of the families 8 and 9. -/
theorem illegalWord_iff (w : Word) : WellFormed.illegalWord w = true ↔ ListedIllegal w := by
  simp only [WellFormed.illegalWord, Bool.or_eq_true, badFamily0_iff, badFamily5_iff, badFamily8_iff, badFamily9_iff,
    badFamilyE_iff, badFamilyF_iff, or_assoc, ListedIllegal]
  rw [or_left_comm (a := _ ∧ _ ∈ _)]

/-- Settles O10: by masks or by the decoder, the illegal words are the listed ones. -/
theorem wellFormedWordsAreTheDecodedOnes : Obligations.WellFormedWordsAreTheDecodedOnes := by
  intro w
  rw [WellFormed.legalWord, Bool.not_eq_true', ← Bool.not_eq_true, illegalWord_iff, ← decodeWord_error_iff]
  cases decodeWord w with
  | ok i => simp
  | error e => simp

/-- Settles O11: the decoder run on each word. -/
theorem sampleWordsDecode : Obligations.SampleWordsDecode := by
  refine ⟨?_, ?_, ?_, ?_, ?_, ?_, ?_, ?_, ?_, ?_, ?_, ?_⟩
  all_goals decide

end Sys2Proof.Safety
end

section
/-! PROOFS. The next pc of every instruction (40_cycle.md R147), and that an instruction with a fault of its own does
nothing but take it. -/

namespace Sys2Proof.Safety

open Sys2Proof.Machine

/-! ## An instruction with a fault of its own (60_exceptions.md R330, R333) -/

/-- The fault of a failed range check is the one 20_memory.md R73 gives. -/
theorem badAccess_eq (s : State) : badAccess s = .addressOutOfRange (firstBadAddress s.i) s.pc := by
  rw [badAccess, firstBadAddress_eq]

/-- An instruction whose own check fails takes that fault and does nothing else. -/
theorem exec_eq_takeFault {i : Instr} {s : State} {f : Fault} (h : ownFault i s = some f) :
    exec i s = takeFault f s := by
  cases i
  case call nnn =>
    obtain ⟨hsp, ⟨⟩⟩ := Option.ite_none_right_eq_some.mp h
    rw [exec, execCall, (s.push_eq_none _).mpr hsp]
  case drw x y n =>
    obtain ⟨hout, ⟨⟩⟩ := Option.ite_none_right_eq_some.mp h
    rw [exec, execDrw, if_pos ((outOfRange_eq_true _ _).mpr hout), badAccess_eq]
  case ldBVx x =>
    obtain ⟨hout, ⟨⟩⟩ := Option.ite_none_right_eq_some.mp h
    rw [exec, execLdBVx, if_pos ((outOfRange_three _).mpr hout), badAccess_eq]
  case ldMemVx x =>
    obtain ⟨hout, ⟨⟩⟩ := Option.ite_none_right_eq_some.mp h
    rw [exec, execLdMemVx, if_pos ((outOfRange_succ _ _).mpr hout), badAccess_eq]
  case ldVxMem x =>
    obtain ⟨hout, ⟨⟩⟩ := Option.ite_none_right_eq_some.mp h
    rw [exec, execLdVxMem, if_pos ((outOfRange_succ _ _).mpr hout), badAccess_eq]
  case skp x =>
    obtain ⟨hkey, ⟨⟩⟩ := Option.ite_none_right_eq_some.mp h
    rw [exec, execSkp, (keyNamed_eq_none _).mpr hkey]
  case sknp x =>
    obtain ⟨hkey, ⟨⟩⟩ := Option.ite_none_right_eq_some.mp h
    rw [exec, execSknp, (keyNamed_eq_none _).mpr hkey]
  case addIVx x =>
    obtain ⟨hsum, ⟨⟩⟩ := Option.ite_none_right_eq_some.mp h
    rw [exec, execAddIVx, if_pos (by rwa [indexSum_toNat]), indexSum_eq]
  all_goals exact (Option.some_ne_none f h.symm).elim

/-! ## Jump targets and skips -/

theorem offsetTarget_eq_ofNat (v0 : Byte) (nnn : Addr12) :
    offsetTarget v0 nnn = BitVec.ofNat 16 (v0.toNat + nnn.toNat) := by
  apply BitVec.eq_of_toNat_eq
  have h1 := v0.isLt
  have h2 := nnn.isLt
  rw [offsetTarget_toNat, BitVec.toNat_ofNat]
  omega

/-- The next pc of `skip(c)` by a proposition c decides. -/
theorem skip_pc_of_iff (s : State) {c : Bool} {p : Prop} [Decidable p] (h : c = true ↔ p) :
    (s.skip c).pc = if p then s.pc + 4 else s.pc + 2 := by
  rw [State.skip_pc, apply_ite (s.pc + ·)]
  exact if_congr h rfl rfl

/-- The next pc of a skip on the opposite of c. -/
theorem skip_not_pc_of_iff (s : State) {c : Bool} {p : Prop} [Decidable p] (h : c = true ↔ p) :
    (s.skip !c).pc = if p then s.pc + 2 else s.pc + 4 := by
  rw [skip_pc_of_iff s (p := ¬p) (by simp [← h]), ite_not]

/-- The key a register names is pressed. -/
theorem key_iff_of_keyNamed {b : Byte} {k : Fin 16} (h : keyNamed b = some k) (s : State) :
    s.key k = true ↔ ∃ j : Fin 16, j.val = b.toNat ∧ s.key j = true := by
  rw [keyNamed_eq_some] at h
  constructor
  · intro hk
    exact ⟨k, h.symm, hk⟩
  · rintro ⟨j, hj, hk⟩
    rwa [← Fin.ext (hj.trans h)]

/-- A register that raises no key fault names a key. -/
theorem keyNamed_of_not_gt {b : Byte} (h : ¬15 < b.toNat) : ∃ k, keyNamed b = some k :=
  Option.ne_none_iff_exists'.mp fun hk => h ((keyNamed_eq_none b).mp hk)

/-! ## The table (R147) -/

/-- No fault of its own, for an instruction with one check. -/
theorem not_of_ite_eq_none {c : Prop} [Decidable c] {f : Fault} (h : (if c then some f else none) = none) : ¬c :=
  fun hc => Option.some_ne_none f (ite_eq_right_iff.mp h hc)

/-- A call that raises no fault goes to its target. -/
theorem execCall_pc {nnn : Addr12} {s t : State} (h : execCall nnn s = .next t) (hsp : s.sp.val ≠ 16) :
    t.pc = BitVec.ofNat 16 nnn.toNat := by
  unfold execCall at h
  split at h
  · exact Host.Outcome.next.inj h ▸ (BitVec.ofNat_toNat 16 nnn).symm
  · next hpush => exact absurd ((s.push_eq_none _).mp hpush) hsp

/-- Fx0A advances once a key is pressed and waits until then. -/
theorem execLdVxK_pc {x : Reg} {s t : State} (h : execLdVxK x s = .next t) :
    t.pc = if ∃ k : Fin 16, s.key k = true then s.pc + 2 else s.pc := by
  unfold execLdVxK at h
  split at h
  · next k hk =>
    rw [if_pos ⟨k, ((s.leastKey_eq_some k).mp hk).1⟩]
    exact Host.Outcome.next.inj h ▸ rfl
  · next hnone =>
    rw [State.leastKey_eq_none] at hnone
    rw [if_neg (by simp [hnone])]
    exact Host.Outcome.next.inj h ▸ rfl

/-- The next pc of an instruction that raises no fault. -/
theorem exec_nextPc {i : Instr} {s t : State} (h : exec i s = .next t) (hf : ownFault i s = none) :
    t.pc = nextPc i s := by
  cases i
  case jp nnn => exact Host.Outcome.next.inj h ▸ (BitVec.ofNat_toNat 16 nnn).symm
  case jpV0 nnn => exact Host.Outcome.next.inj h ▸ offsetTarget_eq_ofNat (s.getV 0) nnn
  case ret => exact Host.Outcome.next.inj h ▸ congrArg s.stack.get (returnSlot_eq_popSlot s).symm
  case call nnn => exact execCall_pc h (not_of_ite_eq_none hf)
  case seImm x kk => exact Host.Outcome.next.inj h ▸ skip_pc_of_iff s beq_iff_eq
  case seReg x y => exact Host.Outcome.next.inj h ▸ skip_pc_of_iff s beq_iff_eq
  case sneImm x kk => exact Host.Outcome.next.inj h ▸ skip_pc_of_iff s bne_iff_ne
  case sneReg x y => exact Host.Outcome.next.inj h ▸ skip_pc_of_iff s bne_iff_ne
  case skp x =>
    obtain ⟨k, hk⟩ := keyNamed_of_not_gt (not_of_ite_eq_none hf)
    rw [exec, execSkp, hk] at h
    exact Host.Outcome.next.inj h ▸ skip_pc_of_iff s (key_iff_of_keyNamed hk s)
  case sknp x =>
    obtain ⟨k, hk⟩ := keyNamed_of_not_gt (not_of_ite_eq_none hf)
    rw [exec, execSknp, hk] at h
    exact Host.Outcome.next.inj h ▸ skip_not_pc_of_iff s (key_iff_of_keyNamed hk s)
  case ldVxK x => exact execLdVxK_pc h
  case drw x y n =>
    rw [exec, execDrw, if_neg (outOfRange_of_ownFault_drw hf)] at h
    exact Host.Outcome.next.inj h ▸ rfl
  case addIVx x =>
    rw [exec, execAddIVx, if_neg (by rw [indexSum_toNat]; exact not_of_ite_eq_none hf)] at h
    exact Host.Outcome.next.inj h ▸ rfl
  case ldBVx x =>
    rw [exec, execLdBVx, if_neg (by rw [outOfRange_three]; exact not_of_ite_eq_none hf)] at h
    exact Host.Outcome.next.inj h ▸ rfl
  case ldMemVx x =>
    rw [exec, execLdMemVx, if_neg (by rw [outOfRange_succ]; exact not_of_ite_eq_none hf)] at h
    exact Host.Outcome.next.inj h ▸ rfl
  case ldVxMem x =>
    rw [exec, execLdVxMem, if_neg (by rw [outOfRange_succ]; exact not_of_ite_eq_none hf), State.loadRegs_frame] at h
    exact Host.Outcome.next.inj h ▸ rfl
  all_goals exact Host.Outcome.next.inj h ▸ rfl

/-- Settles O22: an instruction with a fault of its own only takes it; the others follow the table. -/
theorem nextPcFollowsTheTable : Obligations.NextPcFollowsTheTable := by
  intro i s t h
  refine ⟨exec_nextPc h, fun hf => ?_⟩
  obtain ⟨f, hf⟩ := Option.ne_none_iff_exists'.mp hf
  rw [exec_eq_takeFault hf] at h
  exact Host.Outcome.next.inj h ▸ rfl

end Sys2Proof.Safety
end

section
/-! PROOFS. The cycle (40_cycle.md): what a faulted block does, the fetch, the order of execution and timer step, the
entropy draws, and a word placed for the next fetch. -/

namespace Sys2Proof.Safety

open Sys2Proof.Machine

/-! ## A faulted block (R142) -/

theorem step_eq_self {s : State} {f : Fault} (h : s.fault = some f) : step s = .next s := by
  rw [step, cycle, if_pos (faulted_eq_true h)]

/-- The moves a faulted block admits are a reset and a cycle; a cycle keeps the latch. -/
theorem act_keeps_fault {b b' : Bench} {a : HostAction} {f : Fault} (h : b.block.fault = some f)
    (hact : b.act a = some b') (ha : a ≠ .new) : b'.block.fault = some f := by
  rcases Bench.act_cases hact with ⟨hnew, -⟩ | ⟨bytes, -, -, -, hnone, -⟩ | ⟨k, pressed, -, hnone, -⟩ |
    ⟨source, s, -, hstep, rfl⟩
  · exact absurd hnew ha
  · exact absurd (hnone.symm.trans h) (Option.some_ne_none f).symm
  · exact absurd (hnone.symm.trans h) (Option.some_ne_none f).symm
  · have hsource : (b.block.withEntropy source).fault = some f := h
    obtain rfl := Host.Outcome.next.inj ((step_eq_self hsource).symm.trans hstep)
    exact h

/-- Settles O14: a cycle of a faulted block is the identity, its result is the latch, and no other move reaches it. -/
theorem faultedBlockChangesNothing : Obligations.FaultedBlockChangesNothing := by
  intro s f h
  refine ⟨step_eq_self h, by rw [State.cycleResult, h], ?_⟩
  rintro b b' a rfl
  exact act_keeps_fault h

/-! ## Fetch (R144) -/

theorem step_eq_fetchOutOfRange {s : State} (h : s.fault = none) (hp : 0xFFF < s.pc.toNat + 1) :
    step s = .next (s.latchFault (.fetchOutOfRange s.pc)) := by
  have hf : s.clearRedraw.fetchFaults = true := decide_eq_true hp
  rw [step, cycle, faulted_eq_false h, fetchAndRun, hf]
  rfl

/-- Once fetched, LAST stays: neither a fault, nor an instruction, nor the timer step writes it. -/
theorem decodeAndExecute_last (w : Word) (s : State) : ∃ t, decodeAndExecute w s = .next t ∧ t.last = s.last := by
  unfold decodeAndExecute
  split
  · next i _ =>
    obtain ⟨u, hu, he⟩ := exec_effect i s
    rw [hu, finishCycle]
    split
    · exact ⟨u, rfl, he.last_eq⟩
    · exact ⟨u.timerStep, rfl, he.last_eq⟩
  · exact ⟨_, rfl, rfl⟩

/-- Settles O13: past the top the fetch latches its fault; elsewhere LAST is the word at pc. -/
theorem fetchReadsTheBigEndianWord : Obligations.FetchReadsTheBigEndianWord := by
  refine fun s h => ⟨step_eq_fetchOutOfRange h, fun hp => ?_⟩
  obtain ⟨t, ht, hlast⟩ := decodeAndExecute_last (wordAtPc s) (executing s)
  refine ⟨t, (step_eq_decodeAndExecute h (by omega)).trans ht, ?_⟩
  rw [hlast, executing_last, wordAtPc_toNat]

/-! ## Execution and the timer step (R141, R149) -/

theorem finishCycle_of_fault_none {t : State} (h : t.fault = none) :
    finishCycle (.next t) = .next { t with dt := countedDown t.dt, st := countedDown t.st } := by
  rw [finishCycle, faulted_eq_false h, countedDown_eq_countDown, countedDown_eq_countDown]
  rfl

theorem finishCycle_of_fault_ne_none {t : State} (h : t.fault ≠ none) : finishCycle (.next t) = .next t := by
  obtain ⟨f, hf⟩ := Option.ne_none_iff_exists'.mp h
  rw [finishCycle, if_pos (faulted_eq_true hf)]

/-- Settles O12: the instruction answers a next state, and the cycle ends with or without the timer step. -/
theorem stepExecutesTheDecodedInstruction : Obligations.StepExecutesTheDecodedInstruction := by
  intro s i h hp hd
  obtain ⟨t, ht, -⟩ := exec_effect i (executing s)
  rw [step_eq_finishCycle h hp hd, ht]
  exact ⟨t, rfl, finishCycle_of_fault_none, finishCycle_of_fault_ne_none⟩

/-! ## Entropy (R151) -/

/-- Cxkk takes one draw. -/
theorem exec_rnd_draws {x : Reg} {kk : Byte} {s t : State} (h : exec (.rnd x kk) s = .next t) :
    t.draws = s.draws + 1 ∧ t.entropy = s.entropy.tail :=
  Host.Outcome.next.inj h ▸ ⟨rfl, rfl⟩

/-- No other instruction draws. -/
theorem Effect.draws_entropy_eq {i : Instr} {s t : State} (h : Effect s i t) (hi : ∀ x kk, i ≠ .rnd x kk) :
    t.draws = s.draws ∧ t.entropy = s.entropy := by
  cases h with
  | random => exact absurd rfl (hi _ _)
  | _ => exact ⟨rfl, rfl⟩

/-- Settles O20: of the four ways a step goes on (`step_cases`) only the last executes an instruction, and of the
instructions only Cxkk draws. -/
theorem entropyIsDrawnOnlyByRnd : Obligations.EntropyIsDrawnOnlyByRnd := by
  intro s t h
  refine ⟨?_, fun hno => ?_⟩
  · rintro ⟨hfault, hp, x, kk, hd⟩
    rw [step_eq_finishCycle hfault hp hd] at h
    obtain ⟨u, hu, hend⟩ := finishCycle_eq_next.mp h
    have hdraw := exec_rnd_draws hu
    obtain ⟨-, rfl⟩ | ⟨-, rfl⟩ := hend
    · exact hdraw
    · exact hdraw
  · rcases step_cases h with ⟨-, rfl⟩ | ⟨-, -, rfl⟩ | ⟨-, -, -, rfl⟩ | ⟨hf, hfetch, i, u, hd, hu, hend⟩
    · exact ⟨rfl, rfl⟩
    · exact ⟨rfl, rfl⟩
    · exact ⟨rfl, rfl⟩
    · have hi : ∀ x kk, i ≠ .rnd x kk := by
        rintro x kk rfl
        have hfault : s.fault = none := by simpa [State.faulted] using hf
        rw [← wordAtPc_eq_fetchWord] at hd
        exact hno ⟨hfault, pc_le_of_fetchFaults_eq_false hfetch, x, kk, hd⟩
      have hdraws := (effect_of_exec hu).draws_entropy_eq hi
      obtain ⟨-, rfl⟩ | ⟨-, rfl⟩ := hend
      · exact hdraws
      · exact hdraws

/-! ## A word placed for the next fetch (log entry 7) -/

/-- The table's bits are decoded as the word they are laid out from. -/
theorem decodeWord_tableWord {nbits w : Nat} {i : Instr} (h : decodeTableWord nbits w = some i) :
    decodeWord (tableWord nbits w) = .ok i := by
  rw [decodeTableWord, decodeBytes, wordOfBytes_highByte_lowByte] at h
  cases hd : decodeWord (tableWord nbits w) with
  | ok j => rw [hd] at h; exact congrArg _ (Option.some.inj h)
  | error e => rw [hd] at h; cases h

/-- The instruction of a cycle that passes its latch check, fetch and decode. -/
theorem currentInstr_eq_some {s : State} {i : Instr} (h : s.fault = none) (hp : s.pc.toNat ≤ 0xFFE)
    (hd : decodeWord s.fetchWord = .ok i) : s.currentInstr = some i := by
  have hf : s.fetchFaults = false := decide_eq_false (by omega)
  rw [State.currentInstr, faulted_eq_false h, hf, hd]
  rfl

theorem readByte_placeWord_outside (s : State) (w : Word) {a : Nat} (h0 : a ≠ s.pc.toNat) (h1 : a ≠ s.pc.toNat + 1) :
    (s.placeWord w).readByte a = s.readByte a :=
  readByte_storeBytes_outside s (l := [highByte w, lowByte w]) (by rw [List.length_cons, List.length_singleton]; omega)

/-- Settles O55: the placed word is fetched (`State.fetchWord_placeWord`), and a placing writes two bytes and FAULT. -/
theorem placedWordIsExecutedNext : Obligations.PlacedWordIsExecutedNext := by
  intro s w i hp hd
  have hfetch : decodeWord (s.withFetchWord 16 w).fetchWord = .ok i := by
    rw [State.withFetchWord, State.fetchWord_placeWord, decodeWord_tableWord hd]
  exact ⟨currentInstr_eq_some rfl hp hfetch, fun _ => readByte_placeWord_outside s _, rfl⟩

end Sys2Proof.Safety
end

section
/-! PROOFS. The display (41_display.md): which cells a sprite covers, what a whole sprite does to the framebuffer and the
collision, what each cycle leaves of FB, RD and FAULT, and the write enables. -/

namespace Sys2Proof.Safety

open Sys2Proof.Machine

/-! ## The cells a sprite covers (R172) -/

section
variable (fb : Framebuffer) (c0 r0 : Byte) (rows : Nat → Byte) (c : Fin 64) (r : Fin 32)

theorem spriteCovers_iff (n : Nat) :
    spriteCovers c0 r0 n rows c r = true ↔ ∃ k, k < n ∧ spriteRow r0 k = r ∧
      ∃ j, j < 8 ∧ spriteColumn c0 j = c ∧ spriteBit (rows k) j = true := by
  simp only [spriteCovers, List.any_eq_true, List.mem_range, Bool.and_eq_true, beq_iff_eq]
  constructor
  · rintro ⟨k, hk, j, hj, ⟨hc, hr⟩, hb⟩
    exact ⟨k, hk, hr, j, hj, hc, hb⟩
  · rintro ⟨k, hk, hr, j, hj, hc, hb⟩
    exact ⟨k, hk, j, hj, ⟨hc, hr⟩, hb⟩

/-- A further row adds the cells of that row. -/
theorem spriteCovers_succ (n : Nat) :
    spriteCovers c0 r0 (n + 1) rows c r = true ↔ spriteCovers c0 r0 n rows c r = true ∨
      (spriteRow r0 n = r ∧ ∃ j, j < 8 ∧ spriteColumn c0 j = c ∧ spriteBit (rows n) j = true) := by
  simp only [spriteCovers_iff, Nat.lt_succ_iff_lt_or_eq, or_and_right, exists_or, exists_eq_left]

/-- The rows of a sprite are distinct, so the rows before the n-th leave the n-th alone (R173). -/
theorem not_spriteCovers_row {n : Nat} (hn : n < 16) : ¬spriteCovers c0 r0 n rows c (spriteRow r0 n) = true := by
  rw [spriteCovers_iff]
  rintro ⟨k, hk, hr, -⟩
  exact hk.ne (spriteRow_inj r0 (by omega) hn hr)

/-! ## A whole sprite (R171, R173) -/

theorem plotSprite_succ (n : Nat) :
    plotSprite fb c0 r0 (n + 1) rows = plotRow (plotSprite fb c0 r0 n rows) c0 (spriteRow r0 n) (rows n) := by
  rw [plotSprite, List.range_succ, List.foldl_append]
  rfl

/-- A plotted sprite toggles exactly the cells it covers. -/
theorem plotSprite_pixel {n : Nat} (hn : n ≤ 16) :
    ((plotSprite fb c0 r0 n rows).1.pixel c r = true) ↔
      (fb.pixel c r = true ↔ ¬spriteCovers c0 r0 n rows c r = true) := by
  induction n with
  | zero => simp [plotSprite, spriteCovers]
  | succ n ih =>
    rw [plotSprite_succ, plotRow_pixel, ih (by omega), spriteCovers_succ]
    by_cases hcov : spriteCovers c0 r0 n rows c r = true
    · have hrow : spriteRow r0 n ≠ r := by
        rintro rfl
        exact not_spriteCovers_row c0 r0 rows c hn hcov
      simp [hcov, hrow]
    · simp [hcov]

/-- A plotted sprite collides exactly when a cell it covers was set. -/
theorem plotSprite_collision {n : Nat} (hn : n ≤ 16) :
    ((plotSprite fb c0 r0 n rows).2 = true) ↔
      ∃ c r, spriteCovers c0 r0 n rows c r = true ∧ fb.pixel c r = true := by
  induction n with
  | zero => simp [plotSprite, spriteCovers]
  | succ n ih =>
    have hbefore : ∀ c, (plotSprite fb c0 r0 n rows).1.pixel c (spriteRow r0 n) = true ↔
        fb.pixel c (spriteRow r0 n) = true := fun c => by
      rw [plotSprite_pixel fb c0 r0 rows c _ (by omega), iff_true_right (not_spriteCovers_row c0 r0 rows c hn)]
    rw [plotSprite_succ, plotRow_collision, ih (by omega)]
    simp only [hbefore, spriteCovers_succ]
    constructor
    · rintro (⟨c, r, hc, hp⟩ | ⟨j, hj, hp, hb⟩)
      · exact ⟨c, r, .inl hc, hp⟩
      · exact ⟨_, _, .inr ⟨rfl, j, hj, rfl, hb⟩, hp⟩
    · rintro ⟨c, r, hc | ⟨rfl, j, hj, rfl, hb⟩, hp⟩
      · exact .inl ⟨c, r, hc, hp⟩
      · exact .inr ⟨j, hj, hp, hb⟩

end

/-! ## What Dxyn draws -/

/-- The framebuffer and the collision of Dxyn in s, when it raises no fault. -/
def drawing (x y : Reg) (n : BitVec 4) (s : State) : Drawing :=
  plotSprite s.fb (s.getV x) (s.getV y) n.toNat (fun k => s.readByte (s.i.toNat + k))

section
variable (x y : Reg) (n : BitVec 4) (s : State)

theorem covered_iff_spriteCovers (c : Fin 64) (r : Fin 32) :
    covered x y n s c r ↔
      spriteCovers (s.getV x) (s.getV y) n.toNat (fun k => s.readByte (s.i.toNat + k)) c r = true := by
  simp only [spriteCovers_iff, Fin.ext_iff, spriteRow_val, spriteColumn_val, spriteBit, covered]
  constructor
  · rintro ⟨k, j, hk, hj, hc, hr, hb⟩
    exact ⟨k, hk, hr, j, hj, hc, hb⟩
  · rintro ⟨k, hk, hr, j, hj, hc, hb⟩
    exact ⟨k, j, hk, hj, hc, hr, hb⟩

theorem drawing_pixel (c : Fin 64) (r : Fin 32) :
    (drawing x y n s).1.pixel c r = true ↔ (s.fb.pixel c r = true ↔ ¬covered x y n s c r) := by
  rw [covered_iff_spriteCovers]
  exact plotSprite_pixel _ _ _ _ c r (Nat.le_of_lt n.isLt)

theorem drawing_pixel_of_covered {c : Fin 64} {r : Fin 32} (h : covered x y n s c r) :
    (drawing x y n s).1.pixel c r = !(s.fb.pixel c r) := by
  rw [Bool.eq_iff_iff, drawing_pixel, iff_false_right (not_not.mpr h), Bool.not_eq_true', Bool.not_eq_true]

theorem drawing_pixel_of_not_covered {c : Fin 64} {r : Fin 32} (h : ¬covered x y n s c r) :
    (drawing x y n s).1.pixel c r = s.fb.pixel c r := by
  rw [Bool.eq_iff_iff, drawing_pixel, iff_true_right h]

theorem drawing_collision :
    (drawing x y n s).2 = true ↔ ∃ c r, covered x y n s c r ∧ s.fb.pixel c r = true := by
  simp only [covered_iff_spriteCovers]
  exact plotSprite_collision _ _ _ _ (Nat.le_of_lt n.isLt)

theorem flagByte_drawing_of_set (h : ∃ c r, covered x y n s c r ∧ s.fb.pixel c r = true) :
    flagByte (drawing x y n s).2 = 1 := by
  rw [(drawing_collision x y n s).mpr h]
  rfl

theorem flagByte_drawing_of_clear (h : ¬∃ c r, covered x y n s c r ∧ s.fb.pixel c r = true) :
    flagByte (drawing x y n s).2 = 0 := by
  rw [← drawing_collision, Bool.not_eq_true] at h
  rw [h]
  rfl

/-- A Dxyn that passes its range check presents its drawing and writes the collision into VF. -/
theorem exec_drw_inRange (h : outOfRange s.i n.toNat = false) :
    exec (.drw x y n) s =
      .next ((s.setV VF (flagByte (drawing x y n s).2)).present (drawing x y n s).1).advance := by
  rw [exec, execDrw, if_neg (by rw [h]; decide)]
  rfl

/-- The word of Dxyn as a sum (30_encoding.md R101, format D). -/
theorem encode_drw :
    encode (.drw x y n) = BitVec.ofNat 16 (0xD000 + 0x100 * x.val + 0x10 * y.val + n.toNat) := by
  apply BitVec.eq_of_toNat_eq
  have hx := x.isLt
  have hy := y.isLt
  have hn := n.isLt
  have hbase : (0xD000 : Word).toNat = 0xD000 := rfl
  rw [encode, formatD_toNat _ _ _ _ rfl, hbase, BitVec.toNat_ofNat]
  omega

end

/-- Settles O27: the word is the one the encoder gives for 00E0, and the meaning presents the blank framebuffer. -/
theorem clsClearsTheFramebuffer : Obligations.ClsClearsTheFramebuffer :=
  ⟨decodeWord_encode .cls, fun _ => ⟨_, rfl, rfl, Framebuffer.pixel_blank⟩⟩

/-- Settles O28: a draw in range presents `drawing`, whose pixels and collision are told by the covered cells; a draw out
of range takes its own fault. -/
theorem drwTogglesTheCoveredCells : Obligations.DrwTogglesTheCoveredCells := by
  intro x y n
  refine ⟨encode_drw x y n ▸ decodeWord_encode (.drw x y n), fun s => ⟨fun hrange => ?_, fun hn hout => ?_⟩⟩
  · have hin : outOfRange s.i n.toNat = false := by
      rw [← Bool.not_eq_true, outOfRange_eq_true]
      omega
    exact ⟨_, exec_drw_inRange x y n s hin, rfl,
      fun c r => ⟨drawing_pixel_of_covered x y n s, drawing_pixel_of_not_covered x y n s⟩,
      fun hset => (s.getV_setV_same VF _).trans (flagByte_drawing_of_set x y n s hset),
      fun hclear => (s.getV_setV_same VF _).trans (flagByte_drawing_of_clear x y n s hclear),
      fun k hk => s.getV_setV_ne _ hk⟩
  · exact exec_eq_takeFault (if_pos ⟨hn, hout⟩)

/-! ## What a cycle leaves of FB, RD and FAULT -/

/-- `DisplayEffect s i t`: a cycle that executes i from s leaves the FB, RD and FAULT of t. -/
inductive DisplayEffect (s : State) : Instr → State → Prop where
  | clear {t} : t.fb = Framebuffer.blank → t.rd = true → t.fault = s.fault → DisplayEffect s .cls t
  | draw {x y n t} : outOfRange s.i n.toNat = false → t.fb = (drawing x y n s).1 → t.rd = true → t.fault = s.fault →
      DisplayEffect s (.drw x y n) t
  | drawFault {x y n t} : outOfRange s.i n.toNat = true → t.fb = s.fb → t.rd = false → t.fault ≠ none →
      DisplayEffect s (.drw x y n) t
  | other {i t} : (∀ x y n, i ≠ .cls ∧ i ≠ .drw x y n) → t.fb = s.fb → t.rd = false → DisplayEffect s i t

/-- No instruction but 00E0 and Dxyn sets RD (R176). -/
theorem Effect.rd_eq_false {s t : State} {i : Instr} (h : Effect s i t) (hrd : s.rd = false)
    (hi : ∀ x y n, i ≠ .cls ∧ i ≠ .drw x y n) : t.rd = false := by
  cases h with
  | fault => rfl
  | display hw =>
    obtain ⟨x, y, n, hw⟩ := hw
    have := hi x y n
    tauto
  | _ => exact hrd

theorem exec_displayEffect {s t : State} {i : Instr} (h : exec i s = .next t) (hrd : s.rd = false) :
    DisplayEffect s i t := by
  have hother (hi : ∀ x y n, i ≠ .cls ∧ i ≠ .drw x y n) : DisplayEffect s i t :=
    .other hi ((effect_of_exec h).fb_eq hi) ((effect_of_exec h).rd_eq_false hrd hi)
  cases i
  case cls => exact Host.Outcome.next.inj h ▸ .clear rfl rfl rfl
  case drw x y n =>
    cases hout : outOfRange s.i n.toNat
    · rw [exec_drw_inRange x y n s hout] at h
      exact Host.Outcome.next.inj h ▸ .draw hout rfl rfl rfl
    · rw [exec, execDrw, if_pos hout] at h
      exact Host.Outcome.next.inj h ▸ .drawFault hout rfl rfl (Option.some_ne_none _)
  all_goals exact hother fun _ _ _ => ⟨nofun, nofun⟩

/-- The timer step, and that RD and LAST are written before execution, do not show in FB, RD and FAULT. -/
theorem DisplayEffect.congr {s t u : State} {i : Instr} (h : DisplayEffect (executing s) i u) (hfb : t.fb = u.fb)
    (hrd : t.rd = u.rd) (hfault : t.fault = u.fault) : DisplayEffect s i t := by
  cases h with
  | clear h1 h2 h3 => exact .clear (hfb.trans h1) (hrd.trans h2) (hfault.trans h3)
  | draw hin h1 h2 h3 => exact .draw hin (hfb.trans h1) (hrd.trans h2) (hfault.trans h3)
  | drawFault hout h1 h2 h3 => exact .drawFault hout (hfb.trans h1) (hrd.trans h2) (hfault ▸ h3)
  | other hi h1 h2 => exact .other hi (hfb.trans h1) (hrd.trans h2)

/-- A cycle executes no instruction and leaves the framebuffer with a fault latched, or it executes the instruction it
has fetched. -/
theorem step_display {s t : State} (h : step s = .next t) :
    (s.currentInstr = none ∧ t.fault ≠ none ∧ t.fb = s.fb ∧ (s.fault = none → t.rd = false)) ∨
    (s.fault = none ∧ ∃ i, s.currentInstr = some i ∧ decodeWord (wordAtPc s) = .ok i ∧ DisplayEffect s i t) := by
  rcases step_cases h with ⟨hf, rfl⟩ | ⟨hf, hp, rfl⟩ | ⟨hf, hp, ⟨e, hd⟩, rfl⟩ | ⟨hf, hp, i, u, hd, hu, hend⟩
  · have hfault : t.fault ≠ none := Option.isSome_iff_ne_none.mp hf
    exact .inl ⟨by rw [State.currentInstr, hf]; rfl, hfault, rfl, fun hnone => absurd hnone hfault⟩
  · exact .inl ⟨by rw [State.currentInstr, hf, hp]; rfl, Option.some_ne_none _, rfl, fun _ => rfl⟩
  · exact .inl ⟨by rw [State.currentInstr, hf, hp, hd]; rfl, Option.some_ne_none _, rfl, fun _ => rfl⟩
  · have hfault : s.fault = none := Option.isNone_iff_eq_none.mp (by simpa [State.faulted] using hf)
    have hcur := currentInstr_eq_some hfault (pc_le_of_fetchFaults_eq_false hp) hd
    rw [← executing_eq] at hu
    have he := exec_displayEffect hu rfl
    refine .inr ⟨hfault, i, hcur, wordAtPc_eq_fetchWord s ▸ hd, ?_⟩
    obtain ⟨-, rfl⟩ | ⟨-, rfl⟩ := hend
    · exact he.congr rfl rfl rfl
    · exact he.congr rfl rfl rfl

/-- Settles O19: a cycle with no instruction to execute leaves RD = 0 and a fault, and of the instructions only a
completed 00E0 or Dxyn leaves RD = 1. -/
theorem redrawFlagMarksACompletedDraw : Obligations.RedrawFlagMarksACompletedDraw := by
  intro s t hfault h
  obtain ⟨-, hlatched, -, hrd⟩ | ⟨-, i, -, hd, he⟩ := step_display h
  · simp [hrd hfault, hlatched]
  · rw [hd]
    cases he with
    | clear _ hrd hf => simp [hrd, hf, hfault]
    | draw _ _ hrd hf => simp [hrd, hf, hfault]
    | drawFault _ _ hrd hf => simp [hrd, hf]
    | other hi _ hrd => simp [hrd, (hi 0 0 0).1, fun x y n => (hi x y n).2]

/-! ## The write enables (R175) -/

section
variable {s : State} {c : Fin 64} {r : Fin 32}

theorem writeEnable_of_none (h : s.currentInstr = none) : s.writeEnable c r = false := by
  rw [State.writeEnable, h]

theorem writeEnable_of_cls (h : s.currentInstr = some .cls) : s.writeEnable c r = true := by
  rw [State.writeEnable, h]

theorem writeEnable_of_drw {x y : Reg} {n : BitVec 4} (h : s.currentInstr = some (.drw x y n)) :
    s.writeEnable c r = true ↔ outOfRange s.i n.toNat = false ∧ covered x y n s c r := by
  rw [State.writeEnable, h, covered_iff_spriteCovers, Bool.and_eq_true, Bool.not_eq_true']

theorem writeEnable_of_other {i : Instr} (h : s.currentInstr = some i) (hi : ∀ x y n, i ≠ .cls ∧ i ≠ .drw x y n) :
    s.writeEnable c r = false := by
  rw [State.writeEnable, h]
  split
  · next e => exact absurd (Option.some.inj e) (hi 0 0 0).1
  · next e => exact absurd (Option.some.inj e) (hi _ _ _).2
  · rfl

theorem writeData_of_none (h : s.currentInstr = none) : s.writeData c r = false := by
  rw [State.writeData, h]

theorem writeData_of_cls (h : s.currentInstr = some .cls) : s.writeData c r = false := by
  rw [State.writeData, h]

theorem writeData_of_drw {x y : Reg} {n : BitVec 4} (h : s.currentInstr = some (.drw x y n)) :
    s.writeData c r = !(s.fb.pixel c r) := by
  rw [State.writeData, h]

end

/-- Settles O29: a cycle with no instruction to execute enables no write, and each display effect of an executed one
meets the enables and the data of its instruction. -/
theorem writeEnablesDriveTheFramebuffer : Obligations.WriteEnablesDriveTheFramebuffer := by
  intro s t h c r
  obtain ⟨hcur, hlatched, hfb, -⟩ | ⟨hfault, i, hcur, hd, he⟩ := step_display h
  · simp [writeEnable_of_none hcur, writeData_of_none hcur, hfb, hlatched]
  · rw [hd]
    cases he with
    | clear hfb _ hf => simp [writeEnable_of_cls hcur, writeData_of_cls hcur, hfb, hf, hfault]
    | @draw x y n _ hin hfb _ hf =>
      have hen := writeEnable_of_drw (c := c) (r := r) hcur
      by_cases hcov : covered x y n s c r
      · simp [hen, hin, hcov, writeData_of_drw hcur, hfb, drawing_pixel_of_covered, hf, hfault]
      · simp [hen, hcov, hfb, drawing_pixel_of_not_covered]
    | drawFault hout hfb _ hf => simp [writeEnable_of_drw hcur, hout, hfb, hf]
    | other hi hfb _ =>
      simp [writeEnable_of_other hcur hi, hfb, (hi 0 0 0).1, fun x y n => (hi x y n).2]

end Sys2Proof.Safety
end

section
/-! PROOFS. The control transfers and the register skips (42_control.md): the words of the family, what a return, a call
and a skip leave, and that a return undoes a call. -/

namespace Sys2Proof.Safety

open Sys2Proof.Machine

/-- A word given by the number of an instruction's encoding decodes to that instruction; the `format…_toNat` lemmas give
the number. -/
theorem decodeWord_ofNat {i : Instr} {n : Nat} (h : (encode i).toNat = n) : decodeWord (BitVec.ofNat 16 n) = .ok i := by
  rw [← h, BitVec.ofNat_toNat, BitVec.setWidth_eq, decodeWord_encode]

/-! ## The call stack (R190, R192) -/

/-- A return reads slot k = SP - 1, or slot 0 when SP = 0, and leaves SP = k. -/
theorem exec_ret {s : State} {k : Fin 16} (h : k.val = s.sp.val - 1) :
    exec .ret s = .next { s with sp := k.castSucc, pc := s.stack.get k } := by
  obtain rfl : k = s.popSlot := Fin.ext (h.trans s.popSlot_val.symm)
  rfl

/-- A call that finds a free slot. -/
theorem exec_call {s : State} (nnn : Addr12) (h : s.sp.val < 16) :
    exec (.call nnn) s = .next { s with
      stack := s.stack.set s.sp.val (s.pc + 2), sp := ⟨s.sp.val + 1, by omega⟩, pc := BitVec.ofNat 16 nnn.toNat } := by
  rw [exec, execCall, State.push, dif_pos h, BitVec.ofNat_toNat]
  rfl

/-- Settles O33: the return reads the slot the call has written, with SP back at its index. -/
theorem callThenRetResumesAfterTheCall : Obligations.CallThenRetResumesAfterTheCall := by
  intro nnn s t hsp h
  obtain rfl := Host.Outcome.next.inj ((exec_call nnn hsp).symm.trans h)
  refine ⟨_, exec_ret (k := ⟨s.sp.val, hsp⟩) rfl, ?_, rfl, rfl, fun k hk => ?_⟩
  · exact Vector.getElem_set_self hsp
  · exact Vector.getElem_set_ne hsp k.isLt hk.symm

/-- Settles O30: slot SP - 1 of a stack in use, slot 0 of an empty one, whose SP is 0 already. -/
theorem retPopsTheStack : Obligations.RetPopsTheStack := by
  refine ⟨decodeWord_encode .ret, fun s => ⟨fun h => exec_ret (k := ⟨s.sp.val - 1, by omega⟩) rfl, fun h => ?_⟩⟩
  have hsp : (0 : Fin 16).castSucc = s.sp := Fin.ext h.symm
  rw [exec_ret (k := 0) (by rw [h]; rfl), hsp]
  rfl

/-- Settles O32: a free slot by `exec_call`; a full stack is the fault of the instruction itself. -/
theorem callPushesTheReturnAddress : Obligations.CallPushesTheReturnAddress :=
  fun nnn => ⟨decodeWord_ofNat (formatA_toNat 0x2000 nnn rfl), fun _ =>
    ⟨exec_call nnn, fun h => exec_eq_takeFault (i := .call nnn) (if_pos h)⟩⟩

/-! ## Jumps (R191, R197) -/

/-- Settles O31: both are jumps, so pc alone changes; the sum of Bnnn does not wrap (`offsetTarget_toNat`). -/
theorem jumpsSetThePc : Obligations.JumpsSetThePc :=
  fun nnn s => ⟨decodeWord_ofNat (formatA_toNat 0x1000 nnn rfl), decodeWord_ofNat (formatA_toNat 0xB000 nnn rfl),
    ⟨_, rfl, rfl, BitVec.toNat_setWidth_of_le (by decide)⟩, ⟨_, rfl, rfl, offsetTarget_toNat (s.getV 0) nnn⟩⟩

/-! ## Register skips (R193 to R196) -/

/-- `skip(c)` writes pc alone, by a proposition c decides. -/
theorem skip_eq_of_iff (s : State) {c : Bool} {p : Prop} [Decidable p] (h : c = true ↔ p) :
    s.skip c = { s with pc := if p then s.pc + 4 else s.pc + 2 } :=
  congrArg s.jump (skip_pc_of_iff s h)

/-- A skip on the opposite of c writes pc alone. -/
theorem skip_not_eq_of_iff (s : State) {c : Bool} {p : Prop} [Decidable p] (h : c = true ↔ p) :
    (s.skip !c) = { s with pc := if p then s.pc + 2 else s.pc + 4 } :=
  congrArg s.jump (skip_not_pc_of_iff s h)

/-- Settles O34: the words by their formats; each meaning skips on the equality or on its opposite. -/
theorem skipsAdvanceByFourOrTwo : Obligations.SkipsAdvanceByFourOrTwo := by
  refine fun x y kk s => ⟨⟨?_, ?_, ?_, ?_⟩, ?_, ?_, ?_, ?_⟩
  · exact decodeWord_ofNat (formatB_toNat 0x3000 x kk rfl)
  · exact decodeWord_ofNat (formatB_toNat 0x4000 x kk rfl)
  · exact decodeWord_ofNat (formatR_toNat 0x5000 x y (by decide))
  · exact decodeWord_ofNat (formatR_toNat 0x9000 x y (by decide))
  · exact congrArg _ (skip_eq_of_iff s beq_iff_eq)
  · exact congrArg _ (skip_not_eq_of_iff s beq_iff_eq)
  · exact congrArg _ (skip_eq_of_iff s beq_iff_eq)
  · exact congrArg _ (skip_not_eq_of_iff s beq_iff_eq)

end Sys2Proof.Safety
end

section
/-! PROOFS. The register arithmetic, logic, shifts and the random byte (43_alu.md): what a result without and with a flag
leaves, each flag and each result as a number, and the values a masked draw can take. -/

namespace Sys2Proof.Safety

open Sys2Proof.Machine

/-! ## What an instruction of the family leaves -/

/-- A result written without a flag: Vx meets what the value meets, and only V and pc change. -/
theorem next_setV_advance (s : State) (x : Reg) (b : Byte) {p : Byte → Prop} (hp : p b) :
    ∃ t, Host.Outcome.next (φ := Fault) (ρ := Refusal) (s.setV x b).advance = .next t ∧
      t = { s with v := t.v, pc := s.pc + 2 } ∧ p (t.getV x) ∧ ∀ k, k ≠ x → t.getV k = s.getV k := by
  refine ⟨_, rfl, rfl, ?_, fun k hk => s.getV_setV_ne b hk⟩
  rwa [State.getV_advance, State.getV_setV_same]

/-- A result written with its flag last (D7): VF holds the flag whatever x is, and Vx the result unless x = F. -/
theorem next_setVFlag_advance (s : State) (x : Reg) (b : Byte) (f : Bool) {p q : Byte → Prop} (hp : p b)
    (hq : q (flagByte f)) :
    ∃ t, Host.Outcome.next (φ := Fault) (ρ := Refusal) (s.setVFlag x b f).advance = .next t ∧
      t = { s with v := t.v, pc := s.pc + 2 } ∧ (x ≠ VF → p (t.getV x)) ∧ q (t.getV VF) ∧
      ∀ k, k ≠ x → k ≠ VF → t.getV k = s.getV k := by
  refine ⟨_, rfl, rfl, fun hx => ?_, ?_, fun k hk hkf => ?_⟩
  · rwa [State.getV_advance, State.getV_setVFlag, if_neg hx, if_pos rfl]
  · rwa [State.getV_advance, getV_setVFlag_VF]
  · rw [State.getV_advance, State.getV_setVFlag, if_neg hkf, if_neg hk]

/-! ## Results and flags as numbers (R226 to R230, R232, R233) -/

/-- A difference of bytes with the borrow from 256. -/
theorem byte_sub_toNat (a b : Byte) : (a - b).toNat = (a.toNat + 256 - b.toNat) % 256 := by
  have := b.isLt
  rw [BitVec.toNat_sub]
  omega

theorem byte_shiftRight_one_toNat (a : Byte) : (a >>> 1).toNat = a.toNat / 2 := by
  rw [BitVec.toNat_ushiftRight, Nat.shiftRight_eq_div_pow, pow_one]

theorem byte_shiftLeft_one_toNat (a : Byte) : (a <<< 1).toNat = (a.toNat * 2) % 256 := by
  rw [BitVec.toNat_shiftLeft, Nat.shiftLeft_eq, pow_one]

theorem flagByte_decide (c : Prop) [Decidable c] : flagByte (decide c) = if c then 1 else 0 :=
  if_congr decide_eq_true_iff rfl rfl

theorem flagByte_carryFlag (a b : Byte) :
    flagByte (carryFlag a b) = if a.toNat + b.toNat > 255 then 1 else 0 :=
  flagByte_decide _

theorem flagByte_noBorrowFlag (a b : Byte) : flagByte (noBorrowFlag a b) = if a.toNat ≥ b.toNat then 1 else 0 :=
  flagByte_decide _

/-- The flag of a bit, as the digit it is in the number. -/
theorem flagByte_getLsbD_toNat (a : Byte) (j : Nat) : (flagByte (a.getLsbD j)).toNat = a.toNat / 2 ^ j % 2 := by
  rw [flagByte_toNat, ← Bool.cond_eq_ite]
  exact Nat.toNat_testBit a.toNat j

theorem flagByte_shiftedOutRight_toNat (a : Byte) : (flagByte (shiftedOutRight a)).toNat = a.toNat % 2 := by
  rw [shiftedOutRight, flagByte_getLsbD_toNat, pow_zero, Nat.div_one]

theorem flagByte_shiftedOutLeft_toNat (a : Byte) : (flagByte (shiftedOutLeft a)).toNat = a.toNat / 128 := by
  have := a.isLt
  rw [shiftedOutLeft, flagByte_getLsbD_toNat]
  omega

/-! ## Loads and the byte sum (R220 to R222) -/

/-- Settles O35: the words by their formats; each meaning writes Vx and no flag. -/
theorem loadsAndByteAddWriteVx : Obligations.LoadsAndByteAddWriteVx := by
  refine fun x y kk s => ⟨⟨?_, ?_, ?_⟩, ?_, ?_, ?_⟩
  · exact decodeWord_ofNat (formatB_toNat 0x6000 x kk rfl)
  · exact decodeWord_ofNat (formatB_toNat 0x7000 x kk rfl)
  · exact decodeWord_ofNat (formatR_toNat 0x8000 x y (by decide))
  · exact next_setV_advance s x kk (p := fun v => v = kk) rfl
  · exact next_setV_advance s x (s.getV x + kk) (p := fun v => v.toNat = _) (BitVec.toNat_add _ _)
  · exact next_setV_advance s x (s.getV y) (p := fun v => v = s.getV y) rfl

/-! ## Logic (R223 to R225) -/

/-- Settles O36: the operation of `Byte` is the one on its bits, also at x = y and x = F. -/
theorem logicWorksBitByBit : Obligations.LogicWorksBitByBit := by
  refine fun x y s => ⟨⟨?_, ?_, ?_⟩, ?_, ?_, ?_⟩
  · exact decodeWord_ofNat (formatR_toNat 0x8001 x y (by decide))
  · exact decodeWord_ofNat (formatR_toNat 0x8002 x y (by decide))
  · exact decodeWord_ofNat (formatR_toNat 0x8003 x y (by decide))
  · exact next_setV_advance s x (s.getV x ||| s.getV y)
      (p := fun v => ∀ j, j < 8 → v.getLsbD j = ((s.getV x).getLsbD j || (s.getV y).getLsbD j))
      fun _ _ => BitVec.getLsbD_or
  · exact next_setV_advance s x (s.getV x &&& s.getV y)
      (p := fun v => ∀ j, j < 8 → v.getLsbD j = ((s.getV x).getLsbD j && (s.getV y).getLsbD j))
      fun _ _ => BitVec.getLsbD_and
  · exact next_setV_advance s x (s.getV x ^^^ s.getV y)
      (p := fun v => ∀ j, j < 8 → v.getLsbD j = ((s.getV x).getLsbD j ^^ (s.getV y).getLsbD j))
      fun _ _ => BitVec.getLsbD_xor

/-! ## Sums and differences with a flag (R226, R227, R229) -/

/-- Settles O37: the sum wraps, and the carry is written last. -/
theorem addRegSetsCarry : Obligations.AddRegSetsCarry :=
  fun x y s => ⟨decodeWord_ofNat (formatR_toNat 0x8004 x y (by decide)),
    next_setVFlag_advance s x _ _ (p := fun v => v.toNat = _) (q := fun v => v = _)
      (BitVec.toNat_add _ _) (flagByte_carryFlag _ _)⟩

/-- Settles O38: 8xy7 is 8xy5 with the operands exchanged. -/
theorem subtractionsSetNoBorrow : Obligations.SubtractionsSetNoBorrow := by
  refine fun x y s => ⟨⟨?_, ?_⟩, ?_, ?_⟩
  · exact decodeWord_ofNat (formatR_toNat 0x8005 x y (by decide))
  · exact decodeWord_ofNat (formatR_toNat 0x8007 x y (by decide))
  · exact next_setVFlag_advance s x _ _ (p := fun v => v.toNat = _) (q := fun v => v = _)
      (byte_sub_toNat (s.getV x) (s.getV y)) (flagByte_noBorrowFlag _ _)
  · exact next_setVFlag_advance s x _ _ (p := fun v => v.toNat = _) (q := fun v => v = _)
      (byte_sub_toNat (s.getV y) (s.getV x)) (flagByte_noBorrowFlag _ _)

/-! ## Shifts (R228, R230) -/

/-- Settles O39: a shift by one is a quotient or a product by two, its flag the digit lost; Vy is not read. -/
theorem shiftsSetTheBitShiftedOut : Obligations.ShiftsSetTheBitShiftedOut := by
  refine fun x y s => ⟨⟨?_, ?_⟩, ?_, ?_⟩
  · exact decodeWord_ofNat (formatR_toNat 0x8006 x y (by decide))
  · exact decodeWord_ofNat (formatR_toNat 0x800E x y (by decide))
  · exact next_setVFlag_advance s x _ _ (p := fun v => v.toNat = _) (q := fun v => v.toNat = _)
      (byte_shiftRight_one_toNat _) (flagByte_shiftedOutRight_toNat _)
  · exact next_setVFlag_advance s x _ _ (p := fun v => v.toNat = _) (q := fun v => v.toNat = _)
      (byte_shiftLeft_one_toNat _) (flagByte_shiftedOutLeft_toNat _)

/-! ## The random byte (R231) -/

theorem entropyByte_of_cons {s : State} {e : Byte} {more : List Byte} (h : s.entropy = e :: more) :
    s.entropyByte = e := by
  rw [State.entropyByte, h]

/-- A masked byte has no bit outside the mask. -/
theorem byte_and_and_not_mask (e kk : Byte) : e &&& kk &&& ~~~kk = 0 := by
  rw [BitVec.and_assoc, BitVec.and_not_self]
  exact BitVec.and_zero

/-- A byte with no bit outside the mask is its own masking. -/
theorem byte_and_mask_eq_self {v kk : Byte} (h : v &&& ~~~kk = 0) : v &&& kk = v :=
  calc v &&& kk = v &&& kk ||| v &&& ~~~kk := by rw [h]; exact BitVec.or_zero.symm
    _ = v &&& (kk ||| ~~~kk) := BitVec.and_or_distrib_left.symm
    _ = v := by rw [BitVec.or_not_self, BitVec.and_allOnes]

/-- What Cxkk leaves: one draw taken, Vx the drawn byte masked. -/
theorem exec_rnd (x : Reg) (kk : Byte) (s : State) :
    exec (.rnd x kk) s = .next (s.consumeEntropy.setV x (s.entropyByte &&& kk)).advance := rfl

/-- Settles O40: the result is the masked draw; a byte v inside the mask is the result of the draw v. -/
theorem rndMasksOneDraw : Obligations.RndMasksOneDraw := by
  refine fun x kk => ⟨?_, fun s => ?_, fun _ _ _ => entropyByte_of_cons, fun s v hv => ⟨v, _, exec_rnd _ _ _, ?_⟩⟩
  · exact decodeWord_ofNat (formatB_toNat 0xC000 x kk rfl)
  · have hx : (s.consumeEntropy.setV x (s.entropyByte &&& kk)).advance.getV x = s.entropyByte &&& kk :=
      State.getV_setV_same _ x _
    refine ⟨_, exec_rnd x kk s, rfl, hx, ?_, fun k hk => State.getV_setV_ne _ _ hk⟩
    rw [hx, byte_and_and_not_mask]
  · rw [State.getV_advance, State.getV_setV_same, entropyByte_of_cons rfl, byte_and_mask_eq_self hv]

end Sys2Proof.Safety
end

section
/-! PROOFS. The index register and memory instructions (44_index_memory.md): the words of the family, what each store,
load and sum leaves when it raises no fault, and that a load undoes a store. -/

namespace Sys2Proof.Safety

open Sys2Proof.Machine

/-! ## Stores (R263, R264) -/

/-- The byte at offset j of a store is the j-th byte stored. -/
theorem readByte_storeBytes_getElem (s : State) (a : Nat) {l : List Byte} {j : Nat} (h : j < l.length) :
    (s.storeBytes a l).readByte (a + j) = l[j] := by
  rw [State.readByte_storeBytes, dif_pos (by omega)]
  simp

/-- Fx33 inside the address space. -/
theorem exec_ldBVx_inRange {x : Reg} {s : State} (h : s.i.toNat + 2 ≤ 0xFFF) :
    exec (.ldBVx x) s = .next (s.storeBytes s.i.toNat (decimalDigits (s.getV x))).advance := by
  rw [exec, execLdBVx, if_neg (by rw [outOfRange_three]; omega)]

/-- The byte at offset j of stored digits is the j-th digit, as a number. -/
theorem readByte_storeBytes_decimalDigits_toNat (s : State) (a : Nat) (b : Byte) {j : Nat} (h : j < 3) :
    ((s.storeBytes a (decimalDigits b)).readByte (a + j)).toNat =
      [b.toNat / 100, b.toNat / 10 % 10, b.toNat % 10][j] := by
  rw [readByte_storeBytes_getElem s a h]
  exact (List.getElem_map BitVec.toNat).symm.trans (List.getElem_of_eq (decimalDigits_toNat b) h)

/-- Settles O43: the digits by `readByte_storeBytes_decimalDigits_toNat`; a failed range check is the fault of the
instruction itself. -/
theorem decimalDigitsAreStored : Obligations.DecimalDigitsAreStored := by
  refine fun x => ⟨?_, fun s => ⟨fun h => ?_, fun h => exec_eq_takeFault (i := .ldBVx x) (if_pos h)⟩⟩
  · exact decodeWord_ofNat (formatX_toNat 0xF033 x (by decide))
  · have digit := @readByte_storeBytes_decimalDigits_toNat s s.i.toNat (s.getV x)
    refine ⟨_, exec_ldBVx_inRange h, rfl, digit (j := 0) (by decide), digit (j := 1) (by decide),
      digit (j := 2) (by decide), fun a ha => ?_⟩
    exact readByte_storeBytes_outside s (by rw [decimalDigits_length]; omega)

/-- Settles O44: V[k] lies at offset k (`readByte_storeBytes_regsUpTo`), and the x + 1 bytes stored end at I + x. -/
theorem registersAreStored : Obligations.RegistersAreStored := by
  refine fun x => ⟨?_, fun s => ⟨fun h => ?_, fun h => exec_eq_takeFault (i := .ldMemVx x) (if_pos h)⟩⟩
  · exact decodeWord_ofNat (formatX_toNat 0xF055 x (by decide))
  · refine ⟨_, exec_ldMemVx_inRange h, rfl, fun k hk => readByte_storeBytes_regsUpTo s _ hk, fun a ha => ?_⟩
    exact readByte_storeBytes_outside s (by rw [List.length_map, regsUpTo_length]; omega)

/-! ## Loads (R265) -/

theorem regsUpTo_nodup (x : Reg) : (regsUpTo x).Nodup := (List.nodup_finRange 16).filter _

/-- After a load of V0..Vx from an address up, V[k] is the byte at offset k. -/
theorem getV_loadRegs_regsUpTo (s : State) (a : Nat) {x k : Reg} (h : k ≤ x) :
    (s.loadRegs a (regsUpTo x)).getV k = s.readByte (a + k.val) :=
  State.getV_loadRegs_mem _ (regsUpTo_nodup x) s a k.val (regsUpTo_get? x k h)

/-- A load of V0..Vx leaves the registers above x. -/
theorem getV_loadRegs_regsUpTo_above (s : State) (a : Nat) {x k : Reg} (h : x < k) :
    (s.loadRegs a (regsUpTo x)).getV k = s.getV k :=
  State.getV_loadRegs_not_mem _ s a fun hk => h.not_ge ((mem_regsUpTo x k).mp hk)

/-- Fx65 inside the address space writes V and pc alone. -/
theorem exec_ldVxMem_inRange {x : Reg} {s : State} (h : s.i.toNat + x.val ≤ 0xFFF) :
    exec (.ldVxMem x) s = .next { s with v := (s.loadRegs s.i.toNat (regsUpTo x)).v, pc := s.pc + 2 } := by
  rw [exec, execLdVxMem, if_neg (by rw [outOfRange_succ]; omega), State.loadRegs_frame]
  rfl

/-- Settles O45: a register up to x gets its byte; one above x is not in the list loaded. -/
theorem registersAreLoaded : Obligations.RegistersAreLoaded := by
  refine fun x => ⟨?_, fun s => ⟨fun h => ?_, fun h => exec_eq_takeFault (i := .ldVxMem x) (if_pos h)⟩⟩
  · exact decodeWord_ofNat (formatX_toNat 0xF065 x (by decide))
  · exact ⟨_, exec_ldVxMem_inRange h, rfl, fun _ => getV_loadRegs_regsUpTo s _,
      fun _ => getV_loadRegs_regsUpTo_above s _⟩

/-- Settles O46: the load reads at offset k what the store has put there, V[k]. -/
theorem storeThenLoadRestoresTheRegisters : Obligations.StoreThenLoadRestoresTheRegisters := by
  intro x s t v hrange h
  obtain rfl := Host.Outcome.next.inj ((exec_ldMemVx_inRange hrange).symm.trans h)
  refine ⟨_, exec_ldVxMem_inRange hrange, rfl, fun k hk => ?_, fun k => getV_loadRegs_regsUpTo_above _ _⟩
  exact (getV_loadRegs_regsUpTo _ _ hk).trans (readByte_storeBytes_regsUpTo s s.i.toNat hk)

/-! ## The index register (R260 to R262) -/

/-- Settles O41: both write I and pc alone; nnn fits in 16 bits, and so does the glyph address
(`glyphAddress_toNat`). -/
theorem indexLoads : Obligations.IndexLoads :=
  fun nnn x s => ⟨decodeWord_ofNat (formatA_toNat 0xA000 nnn rfl),
    decodeWord_ofNat (formatX_toNat 0xF029 x (by decide)),
    ⟨_, rfl, rfl, BitVec.toNat_setWidth_of_le (by decide)⟩, ⟨_, rfl, rfl, glyphAddress_toNat (s.getV x)⟩⟩

/-- Fx1E without overflow. -/
theorem exec_addIVx_inRange {x : Reg} {s : State} (h : s.i.toNat + (s.getV x).toNat ≤ 0xFFFF) :
    exec (.addIVx x) s = .next (s.setI ((indexSum s.i (s.getV x)).setWidth 16)).advance := by
  rw [exec, execAddIVx, if_neg (by rw [indexSum_toNat]; omega)]

/-- Settles O42: the 17-bit sum does not wrap, and where it is at most 0xFFFF its low 16 bits are the sum. -/
theorem indexAddOrOverflow : Obligations.IndexAddOrOverflow := by
  refine fun x => ⟨?_, fun s => ⟨fun h => ?_, fun h => exec_eq_takeFault (i := .addIVx x) (if_pos h)⟩⟩
  · exact decodeWord_ofNat (formatX_toNat 0xF01E x (by decide))
  · refine ⟨_, exec_addIVx_inRange h, rfl, ?_⟩
    rw [State.advance_i, State.setI_i, BitVec.toNat_setWidth, indexSum_toNat]
    exact Nat.mod_eq_of_lt (by omega)

end Sys2Proof.Safety
end

section
/-! PROOFS. The key instructions (45_keys.md): what a key skip does with a register that names a key, what the wait for a
key leaves with a key pressed and with none, and the cycle of a block that waits. -/

namespace Sys2Proof.Safety

open Sys2Proof.Machine

/-! ## Key skips (R290, R291) -/

section
variable {x : Reg} {s : State} {k : Fin 16} (h : (s.getV x).toNat = k.val)
include h

/-- Ex9E where Vx names the key k. -/
theorem exec_skp_key :
    exec (.skp x) s = .next { s with pc := if s.key k then s.pc + 4 else s.pc + 2 } := by
  rw [exec, execSkp, (keyNamed_eq_some _ k).mpr h]
  exact congrArg _ (skip_eq_of_iff s Iff.rfl)

/-- ExA1 where Vx names the key k. -/
theorem exec_sknp_key :
    exec (.sknp x) s = .next { s with pc := if s.key k then s.pc + 2 else s.pc + 4 } := by
  rw [exec, execSknp, (keyNamed_eq_some _ k).mpr h]
  exact congrArg _ (skip_not_eq_of_iff s Iff.rfl)

end

/-- Settles O49: the words by their formats; a named key by `exec_skp_key` and `exec_sknp_key`, and a value above 15 is
the fault of the instruction itself. -/
theorem keySkipsTestTheNamedKey : Obligations.KeySkipsTestTheNamedKey := by
  refine fun x => ⟨⟨?_, ?_⟩, fun s => ⟨fun k hk => ⟨exec_skp_key hk, exec_sknp_key hk⟩, fun h => ⟨?_, ?_⟩⟩⟩
  · exact decodeWord_ofNat (formatX_toNat 0xE09E x (by decide))
  · exact decodeWord_ofNat (formatX_toNat 0xE0A1 x (by decide))
  · exact exec_eq_takeFault (i := .skp x) (if_pos h)
  · exact exec_eq_takeFault (i := .sknp x) (if_pos h)

/-! ## The wait for a key (R292) -/

/-- Fx0A with k the least pressed key. -/
theorem exec_ldVxK_pressed (x : Reg) {s : State} {k : Fin 16} (hk : s.key k = true)
    (hleast : ∀ j, j < k → s.key j = false) :
    exec (.ldVxK x) s = .next (s.setV x (BitVec.ofNat 8 k.val)).advance := by
  rw [exec, execLdVxK, (s.leastKey_eq_some k).mpr ⟨hk, hleast⟩]

/-- Fx0A with no key pressed. -/
theorem exec_ldVxK_released (x : Reg) {s : State} (h : ∀ k, s.key k = false) : exec (.ldVxK x) s = .next s := by
  rw [exec, execLdVxK, s.leastKey_eq_none.mpr h]

/-- A key index as a byte keeps its number. -/
theorem keyByte_toNat (k : Fin 16) : (BitVec.ofNat 8 k.val).toNat = k.val :=
  Nat.mod_eq_of_lt (k.isLt.trans (by decide))

/-- A cycle that waits for a key writes RD and LAST before the instruction and the timers after it (R143, R149), and
nothing else. -/
theorem step_ldVxK_released {x : Reg} {s : State} (hkeys : ∀ k, s.key k = false) (hfault : s.fault = none)
    (hp : s.pc.toNat ≤ 0xFFE) (hd : decodeWord (wordAtPc s) = .ok (.ldVxK x)) :
    step s = .next
      { s with rd := false, last := wordAtPc s, dt := countedDown s.dt, st := countedDown s.st } := by
  have hwait : exec (.ldVxK x) (executing s) = .next (executing s) := exec_ldVxK_released x hkeys
  rw [step_eq_finishCycle hfault hp hd, hwait]
  exact finishCycle_of_fault_none hfault

/-- Settles O50: the three cases by their lemmas; a waiting cycle keeps pc and memory, so it leaves the same word to
fetch. -/
theorem waitForKeyTakesTheLeastKey : Obligations.WaitForKeyTakesTheLeastKey := by
  refine fun x => ⟨?_, fun s k hk hleast => ?_, fun s => exec_ldVxK_released x, fun s hkeys hfault hp hd => ?_⟩
  · exact decodeWord_ofNat (formatX_toNat 0xF00A x (by decide))
  · rw [exec_ldVxK_pressed x hk hleast]
    exact next_setV_advance s x _ (p := fun v => v.toNat = k.val) (keyByte_toNat k)
  · exact ⟨_, step_ldVxK_released hkeys hfault hp hd, rfl, rfl⟩

end Sys2Proof.Safety
end

section
/-! PROOFS. The timer instructions (46_timers.md): the cycle that executes one, and how a timer counts down over completed
cycles that do not write it. -/

namespace Sys2Proof.Safety

open Sys2Proof.Machine

/-! ## Completed cycles (40_cycle.md R141, R149) -/

/-- A cycle whose instruction raises no fault ends with the timer step. -/
theorem step_eq_timerStep {s t : State} {i : Instr} (h : s.fault = none) (hp : s.pc.toNat ≤ 0xFFE)
    (hd : decodeWord (wordAtPc s) = .ok i) (ht : exec i (executing s) = .next t) (hf : t.fault = none) :
    step s = .next t.timerStep := by
  rw [step_eq_finishCycle h hp hd, ht]
  exact finishCycle_eq_next.mpr ⟨t, rfl, .inr ⟨faulted_eq_false hf, rfl⟩⟩

section
variable {s u : State} {i : Instr} (hs : s.fault = none) (hd : decodeWord (wordAtPc s) = .ok i)
  (h : step s = .next u) (hu : u.fault = none)
include hs hd h hu

/-- A cycle that ends without fault has executed its instruction and made the timer step: the other ways of a step
(`step_cases`) find a fault or leave one. -/
theorem effect_of_completed_step : ∃ t, Effect (executing s) i t ∧ u = t.timerStep := by
  rcases step_cases h with ⟨hf, -⟩ | ⟨-, -, rfl⟩ | ⟨-, -, -, rfl⟩ | ⟨-, -, j, t, hj, ht, ⟨hf, rfl⟩ | ⟨-, rfl⟩⟩
  · exact absurd (faulted_eq_false hs) (by simp [hf])
  · exact absurd hu (Option.some_ne_none _)
  · exact absurd hu (Option.some_ne_none _)
  · exact absurd (faulted_eq_false hu) (by simp [hf])
  · obtain rfl : i = j := Except.ok.inj (hd.symm.trans (wordAtPc_eq_fetchWord s ▸ hj))
    exact ⟨t, effect_of_exec (executing_eq s ▸ ht), rfl⟩

/-- A completed cycle that does not write DT counts it down. -/
theorem dt_toNat_of_completed_step (hi : ∀ x, i ≠ .ldDtVx x) : u.dt.toNat = s.dt.toNat - 1 := by
  obtain ⟨t, he, rfl⟩ := effect_of_completed_step hs hd h hu
  rw [State.timerStep_dt, countDown_toNat, he.dt_eq hi, executing_dt]

/-- A completed cycle that does not write ST counts it down. -/
theorem st_toNat_of_completed_step (hi : ∀ x, i ≠ .ldStVx x) : u.st.toNat = s.st.toNat - 1 := by
  obtain ⟨t, he, rfl⟩ := effect_of_completed_step hs hd h hu
  rw [State.timerStep_st, countDown_toNat, he.st_eq hi, executing_st]

end

/-- A timer that every allowed completed cycle counts down is lower by n after n of them, or 0. -/
theorem timer_toNat_of_completedCycles {allowed : Instr → Prop} (timer : State → Byte)
    (hcycle : ∀ {s u i}, s.fault = none → decodeWord (wordAtPc s) = .ok i → step s = .next u → u.fault = none →
      allowed i → (timer u).toNat = (timer s).toNat - 1) :
    ∀ {n : Nat} {s u : State}, completedCycles allowed n s u → (timer u).toNat = (timer s).toNat - n
  | 0, _, _, h => congrArg (fun s => (timer s).toNat) h.symm
  | n + 1, s, u, h => by
    obtain ⟨t, i, hs, hd, hi, hstep, ht, hrest⟩ := h
    rw [timer_toNat_of_completedCycles timer hcycle hrest, hcycle hs hd hstep ht hi, Nat.sub_sub, Nat.add_comm 1]

/-! ## The cycle of a timer instruction (R310 to R312) -/

theorem toneActive_iff (s : State) : s.toneActive = true ↔ s.st.toNat ≠ 0 := by
  rw [State.toneActive, bne_iff_ne, ne_eq, ← BitVec.toNat_inj]
  rfl

section
variable {s : State} {x : Reg} (h : s.fault = none) (hp : s.pc.toNat ≤ 0xFFE)
include h hp

theorem step_ldVxDt (hd : decodeWord (wordAtPc s) = .ok (.ldVxDt x)) :
    ∃ t, step s = .next t ∧ t.getV x = s.dt ∧ t.dt.toNat = s.dt.toNat - 1 :=
  ⟨_, step_eq_timerStep h hp hd rfl h, (executing s).getV_setV_same x s.dt, countDown_toNat s.dt⟩

/-- Fx15 leaves DT = Vx - 1, and each later cycle without an Fx15 takes one more from it. -/
theorem step_ldDtVx (hd : decodeWord (wordAtPc s) = .ok (.ldDtVx x)) :
    ∃ t, step s = .next t ∧ t.dt.toNat = (s.getV x).toNat - 1 ∧
      ∀ n u, completedCycles (fun i => ∀ k, i ≠ .ldDtVx k) n t u → u.dt.toNat = (s.getV x).toNat - 1 - n := by
  have hdt := countDown_toNat (s.getV x)
  refine ⟨_, step_eq_timerStep h hp hd rfl h, hdt, fun n u hn => ?_⟩
  exact hdt ▸ timer_toNat_of_completedCycles State.dt dt_toNat_of_completed_step hn

/-- Fx18 leaves ST = Vx - 1, and the tone is active while the later cycles leave some of it. -/
theorem step_ldStVx (hd : decodeWord (wordAtPc s) = .ok (.ldStVx x)) :
    ∃ t, step s = .next t ∧ t.st.toNat = (s.getV x).toNat - 1 ∧
      ∀ n u, completedCycles (fun i => ∀ k, i ≠ .ldStVx k) n t u →
        (u.toneActive = true ↔ n + 2 ≤ (s.getV x).toNat) := by
  have hst := countDown_toNat (s.getV x)
  refine ⟨_, step_eq_timerStep h hp hd rfl h, hst, fun n u hn => ?_⟩
  have hleft : u.st.toNat = (s.getV x).toNat - 1 - n :=
    hst ▸ timer_toNat_of_completedCycles State.st st_toNat_of_completed_step hn
  rw [toneActive_iff, hleft]
  omega

end

/-- Settles O51: the words by their formats; the cycles by `step_ldVxDt`, `step_ldDtVx` and `step_ldStVx`, the later ones
by the induction over completed cycles. -/
theorem timerInstructionsMoveTheTimers : Obligations.TimerInstructionsMoveTheTimers := by
  refine fun x => ⟨⟨?_, ?_, ?_⟩, fun s => ⟨?_, rfl, rfl⟩, fun s h hp =>
    ⟨step_ldVxDt h hp, step_ldDtVx h hp, step_ldStVx h hp⟩⟩
  · exact decodeWord_ofNat (formatX_toNat 0xF007 x (by decide))
  · exact decodeWord_ofNat (formatX_toNat 0xF015 x (by decide))
  · exact decodeWord_ofNat (formatX_toNat 0xF018 x (by decide))
  · exact next_setV_advance s x s.dt (p := fun v => v = s.dt) rfl

end Sys2Proof.Safety
end

section
/-! PROOFS. The faults and the boundary (60_exceptions.md): which fault a cycle raises and what it leaves, the timer step
of every completed cycle, and the moves of the host with what admits them. -/

namespace Sys2Proof.Safety

open Sys2Proof.Machine

/-! ## Every instruction and every step ends in a next state (R330, R337) -/

/-- An instruction with no fault of its own passes its check and leaves FAULT alone. -/
theorem exec_keeps_fault {i : Instr} {s : State} (h : ownFault i s = none) :
    ∃ t, exec i s = .next t ∧ t.fault = s.fault := by
  cases i
  case call nnn =>
    have hsp : s.sp.val ≠ 16 := not_of_ite_eq_none h
    exact ⟨_, exec_call nnn (by omega), rfl⟩
  case drw x y n => exact ⟨_, exec_drw_inRange x y n s (eq_false_of_ne_true (outOfRange_of_ownFault_drw h)), rfl⟩
  case ldBVx x => exact ⟨_, exec_ldBVx_inRange (Nat.le_of_not_lt (not_of_ite_eq_none h)), rfl⟩
  case ldMemVx x => exact ⟨_, exec_ldMemVx_inRange (Nat.le_of_not_lt (not_of_ite_eq_none h)), rfl⟩
  case ldVxMem x => exact ⟨_, exec_ldVxMem_inRange (Nat.le_of_not_lt (not_of_ite_eq_none h)), rfl⟩
  case addIVx x => exact ⟨_, exec_addIVx_inRange (Nat.le_of_not_lt (not_of_ite_eq_none h)), rfl⟩
  case skp x =>
    obtain ⟨k, hk⟩ := keyNamed_of_not_gt (not_of_ite_eq_none h)
    exact ⟨_, exec_skp_key ((keyNamed_eq_some _ k).mp hk), rfl⟩
  case sknp x =>
    obtain ⟨k, hk⟩ := keyNamed_of_not_gt (not_of_ite_eq_none h)
    exact ⟨_, exec_sknp_key ((keyNamed_eq_some _ k).mp hk), rfl⟩
  case ldVxK x =>
    rw [exec, execLdVxK]
    split
    · exact ⟨_, rfl, rfl⟩
    · exact ⟨_, rfl, rfl⟩
  all_goals exact ⟨_, rfl, rfl⟩

theorem step_eq_next (s : State) : ∃ t, step s = .next t := by
  cases hf : s.fault with
  | some f => exact ⟨s, step_eq_self hf⟩
  | none =>
    by_cases hp : 0xFFF < s.pc.toNat + 1
    · exact ⟨_, step_eq_fetchOutOfRange hf hp⟩
    · obtain ⟨t, ht, -⟩ := decodeAndExecute_last (wordAtPc s) (executing s)
      exact ⟨t, (step_eq_decodeAndExecute hf (by omega)).trans ht⟩

/-- Settles O15: an instruction takes its own fault (`exec_eq_takeFault`) or keeps FAULT (`exec_keeps_fault`). -/
theorem executionEndsInANextState : Obligations.ExecutionEndsInANextState := by
  refine ⟨fun i s => ?_, step_eq_next⟩
  cases hf : ownFault i s with
  | some f => exact ⟨s.latchFault f, exec_eq_takeFault hf, by rintro _ ⟨⟩; rfl, nofun⟩
  | none =>
    obtain ⟨t, ht, hfault⟩ := exec_keeps_fault hf
    exact ⟨t, ht, nofun, fun _ => hfault⟩

/-! ## The fault a cycle raises (R333, R335) -/

/-- The block as a cycle that raises the fault f leaves it: LAST is the fetched word, or as before when the fetch itself
has failed (40_cycle.md R145). -/
def faultedCycle (s : State) (f : Fault) : State :=
  { s with rd := false, last := if 0xFFF < s.pc.toNat + 1 then s.last else wordAtPc s, fault := some f }

section
variable {s : State}

theorem cycleFault_of_pastTop (hp : 0xFFF < s.pc.toNat + 1) : cycleFault s = some (.fetchOutOfRange s.pc) :=
  if_pos hp

theorem cycleFault_of_illegal {e : DecodeError} (hp : s.pc.toNat ≤ 0xFFE) (hd : decodeWord (wordAtPc s) = .error e) :
    cycleFault s = some (.illegalOpcode (wordAtPc s) s.pc) := by
  rw [cycleFault, if_neg (by omega), hd]

theorem cycleFault_of_decoded {i : Instr} (hp : s.pc.toNat ≤ 0xFFE) (hd : decodeWord (wordAtPc s) = .ok i) :
    cycleFault s = ownFault i s := by
  rw [cycleFault, if_neg (by omega), hd]

/-- The fault of an instruction names the pc it is executed at. -/
theorem ownFault_pc {i : Instr} {f : Fault} (h : ownFault i s = some f) : f.pc = s.pc := by
  cases i
  case call | drw | ldBVx | ldMemVx | ldVxMem | skp | sknp | addIVx =>
    obtain ⟨-, ⟨⟩⟩ := Option.ite_none_right_eq_some.mp h
    rfl
  all_goals exact (Option.some_ne_none f h.symm).elim

theorem faultedCycle_of_pastTop (hp : 0xFFF < s.pc.toNat + 1) (f : Fault) : faultedCycle s f = s.latchFault f := by
  rw [faultedCycle, if_pos hp]
  rfl

theorem faultedCycle_of_fetched (hp : s.pc.toNat ≤ 0xFFE) (f : Fault) :
    faultedCycle s f = (executing s).latchFault f := by
  rw [faultedCycle, if_neg (by omega)]
  rfl

/-- A cycle of a block that is not faulted raises the fault of its first check that fails, or completes. -/
theorem step_fault_cases {t : State} (hs : s.fault = none) (h : step s = .next t) :
    (∃ f, cycleFault s = some f ∧ f.pc = s.pc ∧ t = faultedCycle s f) ∨ (cycleFault s = none ∧ t.fault = none) := by
  by_cases hp : 0xFFF < s.pc.toNat + 1
  · rw [step_eq_fetchOutOfRange hs hp, ← faultedCycle_of_pastTop hp] at h
    exact .inl ⟨_, cycleFault_of_pastTop hp, rfl, (Host.Outcome.next.inj h).symm⟩
  have hp : s.pc.toNat ≤ 0xFFE := by omega
  cases hd : decodeWord (wordAtPc s) with
  | error e =>
    rw [step_eq_decodeAndExecute hs hp, decodeAndExecute, hd, takeFault, ← faultedCycle_of_fetched hp] at h
    exact .inl ⟨_, cycleFault_of_illegal hp hd, rfl, (Host.Outcome.next.inj h).symm⟩
  | ok i =>
    rw [cycleFault_of_decoded hp hd]
    cases hf : ownFault i s with
    | some f =>
      have hexec := exec_eq_takeFault ((ownFault_executing i s).trans hf)
      rw [step_eq_finishCycle hs hp hd, hexec, takeFault, finishCycle_of_fault_ne_none (Option.some_ne_none f),
        ← faultedCycle_of_fetched hp] at h
      exact .inl ⟨f, rfl, ownFault_pc hf, (Host.Outcome.next.inj h).symm⟩
    | none =>
      obtain ⟨u, hu, hfault⟩ := exec_keeps_fault ((ownFault_executing i s).trans hf)
      have hnone : u.fault = none := hfault.trans hs
      rw [step_eq_timerStep hs hp hd hu hnone] at h
      exact .inr ⟨rfl, Host.Outcome.next.inj h ▸ hnone⟩

end

/-- Settles O16: the cycle has ended as `faultedCycle` (`step_fault_cases`). -/
theorem raisedFaultIsPrecise : Obligations.RaisedFaultIsPrecise := by
  intro s t f hs h hf
  obtain ⟨g, -, hpc, rfl⟩ | ⟨-, hnone⟩ := step_fault_cases hs h
  · obtain rfl : g = f := Option.some.inj hf
    exact ⟨rfl, hpc, rfl, rfl, rfl⟩
  · exact absurd hf (by simp [hnone])

/-- Settles O17: a latched fault stays, and otherwise `step_fault_cases` gives the fault of the first failed check. -/
theorem firstFailedCheckIsReported : Obligations.FirstFailedCheckIsReported := by
  refine fun s t h => ⟨fun f hf => ?_, fun hs => ?_⟩
  · rw [step_eq_self hf] at h
    exact Host.Outcome.next.inj h ▸ hf
  · obtain ⟨f, hf, -, rfl⟩ | ⟨hf, hnone⟩ := step_fault_cases hs h
    · exact hf.symm
    · exact hnone.trans hf.symm

/-! ## The timer step (R350) -/

/-- Settles O18: the cycle of Fx15 or Fx18 starts from Vx, every other completed one from the timer itself, and a raised
fault leaves both timers (`step_fault_cases`). -/
theorem timersStepInEveryCompletedCycle : Obligations.TimersStepInEveryCompletedCycle := by
  refine fun s t i hs hp hd h => ⟨fun hnone => ⟨?_, ?_⟩, fun hfault => ?_⟩
  · split
    · obtain ⟨u, hu, hdt, -⟩ := step_ldDtVx hs hp hd
      exact Host.Outcome.next.inj (hu.symm.trans h) ▸ hdt
    · next hi => exact dt_toNat_of_completed_step hs hd h hnone hi
  · split
    · obtain ⟨u, hu, hst, -⟩ := step_ldStVx hs hp hd
      exact Host.Outcome.next.inj (hu.symm.trans h) ▸ hst
    · next hi => exact st_toNat_of_completed_step hs hd h hnone hi
  · obtain ⟨f, -, -, rfl⟩ | ⟨-, hnone⟩ := step_fault_cases hs h
    · exact ⟨rfl, rfl⟩
    · exact absurd hnone hfault

/-! ## The moves of the host (R360, R371, R373) -/

section
variable {b : Bench}

theorem act_setKey (k : Fin 16) (pressed : Bool) (h : b.block.fault = none) :
    b.act (.setKey k pressed) = some { b with block := b.block.setKey k pressed } := by
  simp [Bench.act, faulted_eq_false h]

theorem act_setKey_of_faulted (k : Fin 16) (pressed : Bool) (h : b.block.fault ≠ none) :
    b.act (.setKey k pressed) = none :=
  if_pos (Option.isSome_iff_ne_none.mpr h)

theorem act_cycle_of_faulted (source : Option Byte) (h : b.block.fault ≠ none) :
    b.act (.cycle source) = some { b with block := b.block.withEntropy source, started := true } := by
  obtain ⟨f, hf⟩ := Option.ne_none_iff_exists'.mp h
  rw [Bench.act, step_eq_self (s := b.block.withEntropy source) hf]

theorem act_loadProgram (bytes : List Byte) (hl : b.loaded = false) (hs : b.started = false)
    (hf : b.block.fault = none) : b.act (.loadProgram bytes) =
      some ⟨(b.block.loadProgram bytes).1, decide (bytes.length ≤ Config.loadMax), false⟩ := by
  by_cases h : bytes.length ≤ Config.loadMax
  · simp [Bench.act, hl, hs, faulted_eq_false hf, State.loadProgram_ok _ h, h]
  · simp [Bench.act, hl, hs, faulted_eq_false hf, State.loadProgram_tooLarge _ h, h]

theorem act_loadProgram_eq_none (bytes : List Byte)
    (h : b.loaded = true ∨ b.started = true ∨ b.block.fault ≠ none) : b.act (.loadProgram bytes) = none := by
  rw [← Option.isSome_iff_ne_none] at h
  exact if_pos (by rw [Bool.or_eq_true, Bool.or_eq_true, or_assoc]; exact h)

end

/-- The record after an admitted move: a reset clears it, an accepted load sets `loaded`, a cycle sets `started`. -/
theorem act_record {b b' : Bench} {a : HostAction} (h : b.act a = some b') :
    (b'.loaded = true ↔ a ≠ .new ∧
      (b.loaded = true ∨ ∃ bytes : List Byte, a = .loadProgram bytes ∧ bytes.length ≤ Config.loadMax)) ∧
    (b'.started = true ↔ a ≠ .new ∧ (b.started = true ∨ ∃ source, a = .cycle source)) := by
  rcases Bench.act_cases h with ⟨rfl, rfl⟩ | ⟨bytes, rfl, hl, hs, -, rfl⟩ | ⟨k, pressed, rfl, -, rfl⟩ |
    ⟨source, s, rfl, -, rfl⟩
  · simp
  · simp [hl, hs]
  · simp
  · simp

/-- Settles O56: what admits a load by `act_loadProgram` and `act_loadProgram_eq_none`, the record by `act_record`. -/
theorem loadIsAdmittedOnceBeforeTheFirstCycle : Obligations.LoadIsAdmittedOnceBeforeTheFirstCycle :=
  ⟨fun _ bytes => ⟨act_loadProgram bytes, act_loadProgram_eq_none bytes⟩, fun _ _ _ => act_record,
    fun _ => ⟨rfl, rfl⟩⟩

/-- Settles O4: the key written holds the bit, and no other key is written. -/
theorem setKeyWritesOneKey : Obligations.SetKeyWritesOneKey := by
  refine fun b k pressed => ⟨fun h => ⟨_, act_setKey k pressed h, rfl, ?_, fun j hj => ?_⟩,
    act_setKey_of_faulted k pressed⟩
  · exact Vector.getElem_set_self k.isLt
  · exact Vector.getElem_set_ne k.isLt j.isLt (Fin.val_ne_of_ne hj.symm)

/-- Settles O5: of the four moves a faulted block admits a cycle, which is the identity, and a reset. -/
theorem onlyResetLeavesAFault : Obligations.OnlyResetLeavesAFault := fun _ h =>
  ⟨fun k pressed => act_setKey_of_faulted k pressed h, fun bytes => act_loadProgram_eq_none bytes (.inr (.inr h)),
    fun source => act_cycle_of_faulted source h, _, rfl, rfl⟩

/-! ## The outputs in numbers (R330, R351, R372) -/

/-- The value of a cause stands above the 16 bits of its pc. -/
theorem info_toNat (f : Fault) : f.info.toNat = 0x10000 * f.value.toNat + f.pc.toNat := by
  rw [Fault.info, BitVec.toNat_append, ← Nat.shiftLeft_add_eq_or_of_lt f.pc.isLt, Nat.shiftLeft_eq, Nat.mul_comm]

/-- Settles O6: the info by `info_toNat`; a word and a byte keep their number in the 17 bits of the value. -/
theorem boundaryOutputsAreAsTabled : Obligations.BoundaryOutputsAreAsTabled := by
  intro s w pc addr b t
  refine ⟨toneActive_iff s, rfl, ⟨rfl, rfl, rfl, rfl, rfl, rfl⟩, ?_⟩
  have hw (v : Word) : (v.setWidth 17).toNat = v.toNat := BitVec.toNat_setWidth_of_le (by decide)
  have hb : (b.setWidth 17).toNat = b.toNat := BitVec.toNat_setWidth_of_le (by decide)
  simp [info_toNat, Fault.value, Fault.pc, hw, hb]

end Sys2Proof.Safety
end

section
/-! PROOFS. Reset and program load (70_reset_and_hazards.md): what a load reads back, what a constructed block holds,
and the cycle that fetches two zero bytes. -/

namespace Sys2Proof.Safety

open Sys2Proof.Machine

/-! ## Program load (R394, R395) -/

/-- Settles O3: an admitted load is a store from 0x200 up (`State.loadProgram_ok`), a longer one leaves the block as it
was. -/
theorem loadProgramIsAllOrNothing : Obligations.LoadProgramIsAllOrNothing := by
  refine fun s bytes => ⟨fun hfit => ⟨s.storeBytes Config.loadBase bytes, s.loadProgram_ok hfit, rfl, ?_, ?_⟩, ?_⟩
  · exact fun j hj => readByte_storeBytes_getElem s Config.loadBase hj
  · exact fun a ha => readByte_storeBytes_outside s ha
  · exact fun hlong => s.loadProgram_tooLarge (Nat.not_le_of_lt hlong)

/-! ## Reset (R390) -/

/-- A constructed block has written nothing to memory. -/
theorem readByte_newWith (font : Vector Byte 80) (a : Nat) :
    (State.newWith font).readByte a = Memory.unlisted font a := rfl

theorem readByte_newWith_font (font : Vector Byte 80) (a : Fin 80) :
    (State.newWith font).readByte a.val = font.get a := by
  rw [readByte_newWith, Memory.unlisted, dif_pos a.isLt]
  rfl

theorem readByte_newWith_above (font : Vector Byte 80) {a : Nat} (h : 80 ≤ a) :
    (State.newWith font).readByte a = 0 := by
  rw [readByte_newWith, Memory.unlisted, dif_neg (Nat.not_lt_of_le h)]

/-- Settles O1: every vector of the reset state repeats 0, and memory reads as FONT and zeros. -/
theorem resetGivesTheStatedValues : Obligations.ResetGivesTheStatedValues := by
  refine ⟨?_, rfl, fun _ => rfl⟩
  rintro font _ rfl
  have hv (x : Reg) : (State.newWith font).getV x = 0 := Vector.getElem_replicate x.isLt
  have hstack (k : Fin 16) : (State.newWith font).stack.get k = 0 := Vector.getElem_replicate k.isLt
  have hkeys (k : Fin 16) : (State.newWith font).key k = false := Vector.getElem_replicate k.isLt
  exact ⟨hv, rfl, rfl, hstack, rfl, rfl, rfl, hkeys, Framebuffer.pixel_blank, rfl, rfl, rfl,
    readByte_newWith_font font, fun _ ha _ => readByte_newWith_above font ha⟩

/-- Settles O52: the reset state is the block constructed with the default FONT. -/
theorem resetMeetsTheInvariant : Obligations.ResetMeetsTheInvariant :=
  ⟨inv_newWith, inv_newWith Config.defaultFont⟩

/-! ## Running into zero bytes (R396) -/

/-- Two zero bytes are the word 0x0000, which is no instruction (30_encoding.md R104). -/
theorem step_of_zeroBytes {s : State} (hs : s.fault = none) (hp : s.pc.toNat ≤ 0xFFE)
    (h0 : s.readByte s.pc.toNat = 0) (h1 : s.readByte (s.pc.toNat + 1) = 0) :
    step s = .next { s with rd := false, last := 0, fault := some (.illegalOpcode 0x0000 s.pc) } := by
  have hw : wordAtPc s = 0 := by rw [wordAtPc, h0, h1]; rfl
  have hstep := illegalWordsAreExactlyTheListed.2 s hs hp ⟨.family0 0, by rw [hw]; rfl⟩
  rwa [hw] at hstep

/-- Settles O2: a constructed block reads zeros at 0x200 and 0x201, and a load of no bytes stores none. -/
theorem runningIntoZeroBytesFaults : Obligations.RunningIntoZeroBytesFaults := by
  refine ⟨fun font => ?_, fun s => s.loadProgram_ok (Nat.zero_le _), fun s => step_of_zeroBytes⟩
  have hpc : (State.newWith font).pc.toNat = 0x200 := rfl
  exact step_of_zeroBytes rfl (by omega) (readByte_newWith_above font (by omega))
    (readByte_newWith_above font (by omega))

end Sys2Proof.Safety
end
